-- ==== Sys2Proof/Word.lean ====
section
/-! DEFINITION. The bit patterns of the block: the 16-bit Word, the 32-bit product, the 36-bit command word, and the Mode. -/

namespace Sys2Proof

/-- A Word: a 16-bit pattern with no intrinsic sign (00_scope.md R7, R11). -/
abbrev Word := BitVec 16

/-- The width of `fullProduct` and of the multiplier's accumulator (00_scope.md R7). -/
abbrev DoubleWord := BitVec 32

/-- One command as the host presents it: a parallel 36-bit word (20_memory.md R33, 30_encoding.md R44). -/
abbrev CommandWord := BitVec 36

/-- The Mode of a command (00_scope.md R15, 30_encoding.md R48). -/
inductive Mode where
  /-- M = 0, suffix `.U` -/
  | unsigned
  /-- M = 1, suffix `.S` -/
  | signed
deriving DecidableEq, Repr

end Sys2Proof
end

