-- ==== Sys2Proof/Config.lean ====
section
/-! DEFINITION. What is fixed for the block: the parameters of 00_scope.md R7 that are not a width of a type, and the two open draws. -/

namespace Sys2Proof

/-- MUL_ITERATIONS (00_scope.md R7). -/
abbrev Config.mulIterations : Nat := 16

/-- DIV_ITERATIONS (00_scope.md R7). -/
abbrev Config.divIterations : Nat := 16

/-- DZ_QUOTIENT: the quotient of the `n`-th division by zero, by its mode and dividend: a free 16-bit value under no law
(43_divider.md R86, 92_eei_decisions.md D9). It has no body, so nothing can be proved about a value of it (log 4). -/
opaque Config.dzQuotient : (n : Nat) → Mode → (a : Word) → Word

/-- DZ_REMAINDER: the remainder of the `n`-th division by zero, by its mode and dividend: a free 16-bit value under no law
(43_divider.md R86, 92_eei_decisions.md D9; log 4). -/
opaque Config.dzRemainder : (n : Nat) → Mode → (a : Word) → Word

end Sys2Proof
end

