-- ==== Sys2Proof/Machine/State.lean ====
section
/-! DEFINITION. The result records (10_state.md R20 to R24), the machine's state, and the reasons a step can stop. -/

namespace Sys2Proof.Machine

/-- The record of ADD, SUB and NEG (10_state.md R21). -/
structure AdditionResult where
  result : Word
  overflow : Bool
deriving DecidableEq, Repr

/-- The record of MUL (10_state.md R22). -/
structure MultiplicationResult where
  product : Word
  overflow : Bool
  fullProduct : DoubleWord
deriving DecidableEq, Repr

/-- The record of DIV (10_state.md R23; the field `overflow` is 90_conflicts.md C7, D8).
Under `divisionByZero` the quotient and the remainder are draws (43_divider.md R86). -/
structure DivisionResult where
  quotient : Word
  remainder : Word
  divisionByZero : Bool
  overflow : Bool
deriving DecidableEq, Repr

/-- The result record of a command: one of three kinds, and the fields of another kind do not exist (10_state.md R20, D7). -/
inductive Record where
  | addition (r : AdditionResult)
  | multiplication (r : MultiplicationResult)
  | division (r : DivisionResult)
deriving DecidableEq, Repr

/-- The machine. The block itself holds no value from one command to the next (10_state.md R16): the state holds
the two sides of its interface, and the model's own counter of draws. The working registers of 10_state.md R26
have no component here, as R28 says: they are local values of the operations (log 8). -/
structure State where
  /-- The commands the host presents, the next one first (10_state.md R18, R19; log 1). -/
  commands : List CommandWord
  /-- The result record of the last command that ended; none before the first one has (10_state.md R30, R31; log 3). -/
  record : Option Record
  /-- The model's own: how many divisions by zero have drawn free values so far (43_divider.md R86; log 4). -/
  drawIndex : Nat
deriving DecidableEq, Repr

/-- The reasons the machine stops with a fault: there is none. No command raises an exception, traps, aborts or halts
(60_exceptions.md R95), and no behaviour of the block is a fault (93_implementation_defined.md §1). -/
inductive Fault
deriving DecidableEq, Repr

/-- The reasons a step has no meaning. -/
inductive Refusal where
  /-- An instruction whose arm of `exec` gives it no meaning yet: no arm does so in this model. Safe: nothing can be proved of such a step. -/
  | notModelled (mnemonic : String)
  /-- Raised by a command word whose OP is 101, 110 or 111 (30_encoding.md R53, 60_exceptions.md R97); `op` is that OP.
  Safe: it errs toward unprovable, since a run that presents such a word has no next state. -/
  | reservedOp (op : BitVec 3)
deriving DecidableEq, Repr

/-- The machine after power-up: nothing presented, no record (10_state.md R30, 70_reset_and_hazards.md R109, R110).
DESIGN CHOICE: the counter of draws starts at 0 (log 4). -/
def State.reset : State := { commands := [], record := none, drawIndex := 0 }

end Sys2Proof.Machine
end

