-- ==== Sys2Proof/Machine/Ops.lean ====
section
/-! DEFINITION. The named operations on the state, and the ripple adder that every family uses (41_adder_subtractor.md R67). -/

namespace Sys2Proof.Machine

/-- The host presents the command word `w`, to be taken before those already presented. -/
def State.present (s : State) (w : CommandWord) : State := { s with commands := w :: s.commands }

/-- The command's whole record is delivered at its end (20_memory.md R35, 70_reset_and_hazards.md R112). -/
def State.deliver (s : State) (r : Record) : State := { s with record := some r }

/-- The draws of one division by zero are used up: the next one draws afresh (log 4). -/
def State.nextDraw (s : State) : State := { s with drawIndex := s.drawIndex + 1 }

/-- A command ends by delivering its record, and has no other effect (20_memory.md R36). -/
def complete (r : Record) (s : State) : Host.Outcome State Fault Refusal := .next (s.deliver r)

/-- A reserved OP is refused: no meaning, no record (30_encoding.md R53). -/
def refuseReserved (op : BitVec 3) : Host.Outcome State Fault Refusal := .refused (.reservedOp op)

/-- The `n`-bit vector whose bit `i` is `f i`. -/
def bitsOf (f : Nat → Bool) : (n : Nat) → BitVec n
  | 0 => 0#0
  | n + 1 => BitVec.cons (f n) (bitsOf f n)

/-- The carry `c[i]` into bit `i` of the ripple add of `x` and `y` (41_adder_subtractor.md R67). -/
def carryInto {n : Nat} (x y : BitVec n) : Nat → Bool
  | 0 => false
  | i + 1 =>
    (x.getLsbD i && y.getLsbD i) || (carryInto x y i && (x.getLsbD i ^^ y.getLsbD i))

/-- What the N-bit ripple adder gives: the sum, and the carries `c[0..N]` as an N+1-bit vector (41_adder_subtractor.md R67). -/
structure RippleSum (n : Nat) where
  sum : BitVec n
  c : BitVec (n + 1)
deriving DecidableEq, Repr

/-- The N-bit ripple-carry adder `add_N` (41_adder_subtractor.md R67). -/
def addN {n : Nat} (x y : BitVec n) : RippleSum n where
  sum := bitsOf (fun i => x.getLsbD i ^^ y.getLsbD i ^^ carryInto x y i) n
  c := bitsOf (carryInto x y) (n + 1)

/-- The N-bit two's-complement negator: complement, then add one through the ripple adder (40_word_model.md R61). -/
def negate {n : Nat} (v : BitVec n) : BitVec n := (addN (~~~v) 1#n).sum

end Sys2Proof.Machine
end

