-- ==== Sys2Proof/Machine/Operands.lean ====
section
/-! DEFINITION. How an operand Word is read: its two interpretations, its sign, and its magnitude (00_scope.md R11, 40_word_model.md R59 to R63). -/

namespace Sys2Proof.Machine

/-- The sum of the first `k` bits of a vector, each at its weight. -/
def weightedBits {n : Nat} (v : BitVec n) : Nat → Nat
  | 0 => 0
  | k + 1 => weightedBits v k + (v.getLsbD k).toNat * 2 ^ k

/-- The unsigned value of a bit vector: the sum of `w[i]·2^i` (00_scope.md R11). -/
def uint {n : Nat} (v : BitVec n) : Nat := weightedBits v n

/-- The two's-complement value of a bit vector: `uint(w) − 2^n · w[n-1]` (00_scope.md R11, with n = 16). -/
def sint {n : Nat} (v : BitVec n) : Int := (uint v : Int) - (2 : Int) ^ n * (v.getLsbD (n - 1)).toInt

/-- The sign bit of a Word (40_word_model.md R59). -/
def sign (w : Word) : Bool := w.getLsbD 15

/-- The recorded sign of an operand, `s(w, M)`: 0 in unsigned mode (40_word_model.md R60). -/
def recordedSign (w : Word) (m : Mode) : Bool := (m == .signed) && sign w

/-- The magnitude of a Word under a mode, read as unsigned (40_word_model.md R63). -/
def mag (w : Word) (m : Mode) : Word := if recordedSign w m then negate w else w

/-- Reapplying a sign: negate when the sign is 1 (42_multiplier.md R81, 43_divider.md R90). -/
def applySign {n : Nat} (s : Bool) (v : BitVec n) : BitVec n := if s then negate v else v

end Sys2Proof.Machine
end

