-- ==== Sys2Proof/Machine/Flags.lean ====
section
/-! DEFINITION. Every computation of the `overflow` flag (10_state.md R24), and, kept apart, the readings of the source's flags that 90_conflicts.md rejects. -/

namespace Sys2Proof.Machine

/-- Unsigned overflow of a 16-bit add: the carry out of bit 15 (41_adder_subtractor.md R68, R69). -/
def unsignedAddOverflow (r : RippleSum 16) : Bool := r.c.getLsbD 16

/-- Signed overflow of a 16-bit add: the carry into bit 15 differs from the carry out of it (41_adder_subtractor.md R68, R70). -/
def signedAddOverflow (r : RippleSum 16) : Bool := r.c.getLsbD 15 ^^ r.c.getLsbD 16

/-- SUB.U overflow in its gate form, from the add `r` of A and `negate b` (41_adder_subtractor.md R75; C1, D12). -/
def subOverflowU (b : Word) (r : RippleSum 16) : Bool := b != 0x0000#16 && !r.c.getLsbD 16

/-- SUB.S overflow, from the operands and the difference `s` (41_adder_subtractor.md R76; C2, D13). -/
def subOverflowS (a b s : Word) : Bool := (sign a != sign b) && (sign s != sign a)

/-- NEG.U overflow (40_word_model.md R64, R65; D22). -/
def negOverflowU (a : Word) : Bool := a != 0x0000#16

/-- NEG.S overflow (40_word_model.md R64, R66; D22). -/
def negOverflowS (a : Word) : Bool := a == 0x8000#16

/-- MUL.U overflow: some bit of the high half is 1 (42_multiplier.md R82). -/
def mulOverflowU (p : DoubleWord) : Bool := p.extractLsb' 16 16 != 0x0000#16

/-- MUL.S overflow: bits 31..15 are not all equal (42_multiplier.md R83). -/
def mulOverflowS (p : DoubleWord) : Bool :=
  !(p.extractLsb' 15 17 == 0#17 || p.extractLsb' 15 17 == BitVec.allOnes 17)

/-- DIV overflow: signed mode, A = 0x8000 and B = 0xFFFF (43_divider.md R91; D8). -/
def divOverflow (m : Mode) (a b : Word) : Bool :=
  (m == .signed) && (a == 0x8000#16) && (b == 0xFFFF#16)

/-! The readings below lose in 90_conflicts.md. No meaning calls them: they stand here so that a statement
can say where they differ (93_implementation_defined.md §2, P1 and P2; log 9). -/

/-- P1: SUB.U's flag as the literal carry out of A + negate(B) (C1). -/
def subUCarryReading (r : RippleSum 16) : Bool := r.c.getLsbD 16

/-- P2: SUB.S's flag as the literal carry test on A + negate(B) (C2). -/
def subSCarryReading (r : RippleSum 16) : Bool := r.c.getLsbD 15 ^^ r.c.getLsbD 16

end Sys2Proof.Machine
end

