-- ==== Sys2Proof/Machine/AdderSubtractor.lean ====
section
/-! DEFINITION. ADD.U, ADD.S, SUB.U and SUB.S (41_adder_subtractor.md R72 to R76). -/

namespace Sys2Proof.Machine

/-- ADD.U (41_adder_subtractor.md R72). -/
def execAddU (a b : Word) (s : State) : Host.Outcome State Fault Refusal :=
  let r := addN a b
  complete (.addition { result := r.sum, overflow := unsignedAddOverflow r }) s

/-- ADD.S (41_adder_subtractor.md R73). -/
def execAddS (a b : Word) (s : State) : Host.Outcome State Fault Refusal :=
  let r := addN a b
  complete (.addition { result := r.sum, overflow := signedAddOverflow r }) s

/-- The SUB datapath, shared by both modes: A plus the negation of B (41_adder_subtractor.md R74). -/
def subtract (a b : Word) : RippleSum 16 := addN a (negate b)

/-- SUB.U (41_adder_subtractor.md R75). -/
def execSubU (a b : Word) (s : State) : Host.Outcome State Fault Refusal :=
  let r := subtract a b
  complete (.addition { result := r.sum, overflow := subOverflowU b r }) s

/-- SUB.S (41_adder_subtractor.md R76). -/
def execSubS (a b : Word) (s : State) : Host.Outcome State Fault Refusal :=
  let r := subtract a b
  complete (.addition { result := r.sum, overflow := subOverflowS a b r.sum }) s

end Sys2Proof.Machine
end

