-- ==== Sys2Proof/Machine/Divider.lean ====
section
/-! DEFINITION. The restoring divider, DIV.U and DIV.S (43_divider.md R85 to R93). -/

namespace Sys2Proof.Machine

/-- What the compare of one restoring step gives (43_divider.md R89). -/
structure Comparison where
  ge : Bool
  diff : Word
deriving DecidableEq, Repr

/-- The compare of one restoring step: the SUB datapath with the borrow test, carry out meaning no borrow (43_divider.md R89; C8, D10). -/
def borrowTest (rem d : Word) : Comparison :=
  let r := subtract rem d
  { ge := r.c.getLsbD 16, diff := r.sum }

/-- The divider's working registers REM and QR (10_state.md R26). -/
structure DividerRegs where
  rem : Word
  qr : Word
deriving DecidableEq, Repr

/-- Shift the running remainder left by one and bring down dividend bit `i` (43_divider.md R88). -/
def bringDown (rem n : Word) (i : Nat) : Word := (rem <<< 1) ||| (BitVec.ofBool (n.getLsbD i)).setWidth 16

/-- The restoring step for dividend bit `i`, with the compare `test` (43_divider.md R88). -/
def restoringStep (test : Word → Word → Comparison) (n d : Word) (g : DividerRegs) (i : Nat) : DividerRegs :=
  let shifted := bringDown g.rem n i
  let t := test shifted d
  if t.ge then { rem := t.diff, qr := g.qr ||| (1#16 <<< i) } else { rem := shifted, qr := g.qr }

/-- REM and QR after the first `k` restoring steps, from the most significant dividend bit down, from 0 (10_state.md R27, 43_divider.md R88). -/
def restoringLoop (test : Word → Word → Comparison) (n d : Word) : Nat → DividerRegs
  | 0 => { rem := 0x0000#16, qr := 0x0000#16 }
  | k + 1 => restoringStep test n d (restoringLoop test n d k) (15 - k)

/-- The magnitude division: QR is the quotient, REM the remainder (43_divider.md R88). -/
def restoring (n d : Word) : DividerRegs := restoringLoop borrowTest n d Config.divIterations

/-- The record of a division whose divisor is not zero (43_divider.md R87 to R91). -/
def divideRecord (m : Mode) (a b : Word) : DivisionResult :=
  let g := restoring (mag a m) (mag b m)
  { quotient := applySign (recordedSign a m ^^ recordedSign b m) g.qr
    remainder := applySign (recordedSign a m) g.rem
    divisionByZero := false
    overflow := divOverflow m a b }

/-- The record of a division by zero, with its two draws (43_divider.md R86; D9, D20). -/
def divisionByZeroRecord (q r : Word) : DivisionResult :=
  { quotient := q, remainder := r, divisionByZero := true, overflow := false }

/-- DIV in both modes: division by zero is checked first (43_divider.md R86, 60_exceptions.md R98). -/
def divide (m : Mode) (a b : Word) (s : State) : Host.Outcome State Fault Refusal :=
  if b = 0x0000#16 then
    complete (.division (divisionByZeroRecord (Config.dzQuotient s.drawIndex m a) (Config.dzRemainder s.drawIndex m a)))
      s.nextDraw
  else complete (.division (divideRecord m a b)) s

/-- DIV.U (43_divider.md R92). -/
def execDivU (a b : Word) (s : State) : Host.Outcome State Fault Refusal := divide .unsigned a b s

/-- DIV.S (43_divider.md R93). -/
def execDivS (a b : Word) (s : State) : Host.Outcome State Fault Refusal := divide .signed a b s

/-! The readings below lose in 90_conflicts.md. No meaning calls them: they stand here so that a statement
can say where they differ (93_implementation_defined.md §2, P3 and P4; log 9). -/

/-- P3: the signed remainder as a magnitude (C4). -/
def magnitudeRemainderReading (m : Mode) (a b : Word) : Word := (restoring (mag a m) (mag b m)).rem

/-- P4: the compare with the sign test, bit 15 of the difference (C8). -/
def signTestReading (rem d : Word) : Comparison :=
  let r := subtract rem d
  { ge := !r.sum.getLsbD 15, diff := r.sum }

end Sys2Proof.Machine
end

