-- ==== Sys2Proof/Machine/Multiplier.lean ====
section
/-! DEFINITION. The shift-and-add multiplier, MUL.U and MUL.S (42_multiplier.md R78 to R83). -/

namespace Sys2Proof.Machine

/-- The copy of the multiplicand's magnitude for bit `i` of the multiplier: `zext_32(ma) << i` (42_multiplier.md R79). -/
def shiftedMultiplicand (ma : Word) (i : Nat) : DoubleWord := ma.setWidth 32 <<< i

/-- The ripple add that step `i` performs when `mb[i]` is 1 (42_multiplier.md R79; ripple addition, not OR: C3). -/
def accumulatorAdd (ma : Word) (acc : DoubleWord) (i : Nat) : RippleSum 32 :=
  addN acc (shiftedMultiplicand ma i)

/-- Step `i` of the shift-and-add loop on the accumulator (42_multiplier.md R79). -/
def accumulateStep (ma mb : Word) (acc : DoubleWord) (i : Nat) : DoubleWord :=
  if mb.getLsbD i then (accumulatorAdd ma acc i).sum else acc

/-- The accumulator ACC after its first `k` steps, bit 0 first, from 0 (10_state.md R27, 42_multiplier.md R79, D11). -/
def accumulate (ma mb : Word) : Nat → DoubleWord
  | 0 => 0#32
  | k + 1 => accumulateStep ma mb (accumulate ma mb k) k

/-- The magnitude product P (42_multiplier.md R79). -/
def magnitudeProduct (ma mb : Word) : DoubleWord := accumulate ma mb Config.mulIterations

/-- The full product: magnitudes multiplied, and the sign reapplied to 32 bits (42_multiplier.md R78, R81). -/
def fullProduct (m : Mode) (a b : Word) : DoubleWord :=
  applySign (recordedSign a m ^^ recordedSign b m) (magnitudeProduct (mag a m) (mag b m))

/-- MUL.U (42_multiplier.md R82). -/
def execMulU (a b : Word) (s : State) : Host.Outcome State Fault Refusal :=
  let p := fullProduct .unsigned a b
  complete (.multiplication
    { product := p.extractLsb' 0 16, overflow := mulOverflowU p, fullProduct := p }) s

/-- MUL.S (42_multiplier.md R83). -/
def execMulS (a b : Word) (s : State) : Host.Outcome State Fault Refusal :=
  let p := fullProduct .signed a b
  complete (.multiplication
    { product := p.extractLsb' 0 16, overflow := mulOverflowS p, fullProduct := p }) s

end Sys2Proof.Machine
end

