-- ==== Sys2Proof/Machine/Reserved.lean ====
section
/-! DEFINITION. The three reserved values of OP: no meaning, no record (30_encoding.md R53, 60_exceptions.md R97; D5, log 5). -/

namespace Sys2Proof.Machine

/-- OP = 101 is refused (30_encoding.md R53). -/
def execReservedOp101 (_m : Mode) (_a _b : Word) (_s : State) : Host.Outcome State Fault Refusal :=
  refuseReserved 0b101#3

/-- OP = 110 is refused (30_encoding.md R53). -/
def execReservedOp110 (_m : Mode) (_a _b : Word) (_s : State) : Host.Outcome State Fault Refusal :=
  refuseReserved 0b110#3

/-- OP = 111 is refused (30_encoding.md R53). -/
def execReservedOp111 (_m : Mode) (_a _b : Word) (_s : State) : Host.Outcome State Fault Refusal :=
  refuseReserved 0b111#3

end Sys2Proof.Machine
end

