-- ==== Sys2Proof/Machine/WordModel.lean ====
section
/-! DEFINITION. The Word model's commands NEG.U and NEG.S (40_word_model.md R64 to R66). -/

namespace Sys2Proof.Machine

/-- NEG.U (40_word_model.md R65): field B is ignored (30_encoding.md R51). -/
def execNegU (a _b : Word) (s : State) : Host.Outcome State Fault Refusal :=
  complete (.addition { result := negate a, overflow := negOverflowU a }) s

/-- NEG.S (40_word_model.md R66): field B is ignored (30_encoding.md R51). -/
def execNegS (a _b : Word) (s : State) : Host.Outcome State Fault Refusal :=
  complete (.addition { result := negate a, overflow := negOverflowS a }) s

end Sys2Proof.Machine
end

