-- ==== Sys2Proof/Syntax.lean ====
section
/-! DEFINITION. The commands: one constructor for each row of spec/opcode_table.json. -/

namespace Sys2Proof

/-- The eight values of field OP (30_encoding.md R47). -/
inductive Op where
  | add | sub | mul | div | neg | reserved101 | reserved110 | reserved111
deriving DecidableEq, Repr

/-- A command with its operand fields (10_state.md R19). `a` is field A, `b` is field B.
NEG ignores B (30_encoding.md R51), and the term still carries it, so that no field of a command word is lost (log 7).
The three reserved values of OP carry M, A and B, whatever they hold (30_encoding.md R53). -/
inductive Instr where
  /-- ADD.U: `a` is the augend, `b` the addend (41_adder_subtractor.md R72). -/
  | addU (a b : Word)
  /-- ADD.S (41_adder_subtractor.md R73). -/
  | addS (a b : Word)
  /-- SUB.U: `a` is the minuend, `b` the subtrahend (41_adder_subtractor.md R75). -/
  | subU (a b : Word)
  /-- SUB.S (41_adder_subtractor.md R76). -/
  | subS (a b : Word)
  /-- MUL.U: `a` is the multiplicand, `b` the multiplier (42_multiplier.md R78, R82). -/
  | mulU (a b : Word)
  /-- MUL.S (42_multiplier.md R83). -/
  | mulS (a b : Word)
  /-- DIV.U: `a` is the dividend, `b` the divisor (43_divider.md R85, R92). -/
  | divU (a b : Word)
  /-- DIV.S (43_divider.md R93). -/
  | divS (a b : Word)
  /-- NEG.U: `a` is the value to negate, `b` is ignored (40_word_model.md R65). -/
  | negU (a b : Word)
  /-- NEG.S (40_word_model.md R66). -/
  | negS (a b : Word)
  /-- A word with OP = 101 (30_encoding.md R53). -/
  | reservedOp101 (m : Mode) (a b : Word)
  /-- A word with OP = 110 (30_encoding.md R53). -/
  | reservedOp110 (m : Mode) (a b : Word)
  /-- A word with OP = 111 (30_encoding.md R53). -/
  | reservedOp111 (m : Mode) (a b : Word)
deriving DecidableEq, Repr

end Sys2Proof
end

