-- ==== Sys2Proof/Machine/Dispatch.lean ====
section
/-! DEFINITION. The effect of a command: one arm for each constructor of Instr (30_encoding.md R52). -/

namespace Sys2Proof.Machine

def exec (i : Instr) (s : State) : Host.Outcome State Fault Refusal :=
  match i with
  | .addU a b => Sys2Proof.Machine.execAddU a b s
  | .addS a b => Sys2Proof.Machine.execAddS a b s
  | .subU a b => Sys2Proof.Machine.execSubU a b s
  | .subS a b => Sys2Proof.Machine.execSubS a b s
  | .mulU a b => Sys2Proof.Machine.execMulU a b s
  | .mulS a b => Sys2Proof.Machine.execMulS a b s
  | .divU a b => Sys2Proof.Machine.execDivU a b s
  | .divS a b => Sys2Proof.Machine.execDivS a b s
  | .negU a b => Sys2Proof.Machine.execNegU a b s
  | .negS a b => Sys2Proof.Machine.execNegS a b s
  | .reservedOp101 m a b => Sys2Proof.Machine.execReservedOp101 m a b s
  | .reservedOp110 m a b => Sys2Proof.Machine.execReservedOp110 m a b s
  | .reservedOp111 m a b => Sys2Proof.Machine.execReservedOp111 m a b s

end Sys2Proof.Machine
end

