-- ==== Sys2Proof/WellFormed.lean ====
section
/-! DEFINITION. Which commands the host may present. -/

namespace Sys2Proof

/-- A command is well formed when its OP is one of 000 to 100: the host's duty 3 of 70_reset_and_hazards.md R111.
Every operand pattern and either mode is allowed, a nonzero B of NEG among them (30_encoding.md R51; log 14). -/
def Instr.wellFormed : Instr → Bool
  | .addU _ _ | .addS _ _ | .subU _ _ | .subS _ _ | .mulU _ _ | .mulS _ _
  | .divU _ _ | .divS _ _ | .negU _ _ | .negS _ _ => true
  | .reservedOp101 _ _ _ | .reservedOp110 _ _ _ | .reservedOp111 _ _ _ => false

/-- `wellFormed` as a proposition. -/
abbrev Instr.WellFormed (i : Instr) : Prop := i.wellFormed = true

/-- The form the assembler writes (30_encoding.md R56): a well-formed command whose field B is 0x0000 if it is a NEG. -/
def Instr.assemblerForm : Instr → Bool
  | .negU _ b | .negS _ b => b == 0#16
  | i => i.wellFormed

end Sys2Proof
end

