-- ==== Sys2Proof/Decode.lean ====
section
/-! DEFINITION. Decoding a 36-bit command word (30_encoding.md R46 to R55), the encoder, and the opcode table as rows of mask and match. -/

namespace Sys2Proof

/-- The mode of field M (30_encoding.md R48): 0 is unsigned, 1 is signed. -/
def Mode.ofBit : Bool → Mode
  | false => .unsigned
  | true => .signed

/-- Field M of a mode. -/
def Mode.toBit : Mode → Bool
  | .unsigned => false
  | .signed => true

/-- Field OP (30_encoding.md R47). All eight values are named: no wildcard (R52). -/
def Op.ofBits (o : BitVec 3) : Op :=
  match o.getLsbD 2, o.getLsbD 1, o.getLsbD 0 with
  | false, false, false => .add
  | false, false, true => .sub
  | false, true, false => .mul
  | false, true, true => .div
  | true, false, false => .neg
  | true, false, true => .reserved101
  | true, true, false => .reserved110
  | true, true, true => .reserved111

/-- The three bits of an operation (30_encoding.md R47). -/
def Op.toBits : Op → BitVec 3
  | .add => 0b000#3
  | .sub => 0b001#3
  | .mul => 0b010#3
  | .div => 0b011#3
  | .neg => 0b100#3
  | .reserved101 => 0b101#3
  | .reserved110 => 0b110#3
  | .reserved111 => 0b111#3

/-- Field OP, bits 35:33 (30_encoding.md R46). -/
def opField (w : CommandWord) : BitVec 3 := w.extractLsb' 33 3

/-- Field M, bit 32 (30_encoding.md R46). -/
def modeField (w : CommandWord) : Bool := w.getLsbD 32

/-- Field A, bits 31:16, carried unchanged (30_encoding.md R46, R49, R50). -/
def aField (w : CommandWord) : Word := w.extractLsb' 16 16

/-- Field B, bits 15:0, carried unchanged (30_encoding.md R46, R49, R50). -/
def bField (w : CommandWord) : Word := w.extractLsb' 0 16

/-- The command that the four fields name (30_encoding.md R52). -/
def Instr.ofFields (op : Op) (m : Mode) (a b : Word) : Instr :=
  match op, m with
  | .add, .unsigned => .addU a b
  | .add, .signed => .addS a b
  | .sub, .unsigned => .subU a b
  | .sub, .signed => .subS a b
  | .mul, .unsigned => .mulU a b
  | .mul, .signed => .mulS a b
  | .div, .unsigned => .divU a b
  | .div, .signed => .divS a b
  | .neg, .unsigned => .negU a b
  | .neg, .signed => .negS a b
  | .reserved101, m => .reservedOp101 m a b
  | .reserved110, m => .reservedOp110 m a b
  | .reserved111, m => .reservedOp111 m a b

/-- Decoding is total on every 36-bit word (30_encoding.md R52). A reserved word decodes to the command
that names its OP, and the machine refuses that command by the same name (R53). -/
def decode (w : CommandWord) : Instr :=
  Instr.ofFields (Op.ofBits (opField w)) (Mode.ofBit (modeField w)) (aField w) (bField w)

/-- The operation of a command. -/
def Instr.op : Instr → Op
  | .addU _ _ | .addS _ _ => .add
  | .subU _ _ | .subS _ _ => .sub
  | .mulU _ _ | .mulS _ _ => .mul
  | .divU _ _ | .divS _ _ => .div
  | .negU _ _ | .negS _ _ => .neg
  | .reservedOp101 _ _ _ => .reserved101
  | .reservedOp110 _ _ _ => .reserved110
  | .reservedOp111 _ _ _ => .reserved111

/-- The mode of a command. -/
def Instr.mode : Instr → Mode
  | .addU _ _ | .subU _ _ | .mulU _ _ | .divU _ _ | .negU _ _ => .unsigned
  | .addS _ _ | .subS _ _ | .mulS _ _ | .divS _ _ | .negS _ _ => .signed
  | .reservedOp101 m _ _ | .reservedOp110 m _ _ | .reservedOp111 m _ _ => m

/-- Field A of a command. -/
def Instr.a : Instr → Word
  | .addU a _ | .addS a _ | .subU a _ | .subS a _ | .mulU a _ | .mulS a _
  | .divU a _ | .divS a _ | .negU a _ | .negS a _ => a
  | .reservedOp101 _ a _ | .reservedOp110 _ a _ | .reservedOp111 _ a _ => a

/-- Field B of a command. -/
def Instr.b : Instr → Word
  | .addU _ b | .addS _ b | .subU _ b | .subS _ b | .mulU _ b | .mulS _ b
  | .divU _ b | .divS _ b | .negU _ b | .negS _ b => b
  | .reservedOp101 _ _ b | .reservedOp110 _ _ b | .reservedOp111 _ _ b => b

/-- The packing of 30_encoding.md R46: OP, M, A, B from the most significant bit down. -/
def packFields (op : BitVec 3) (m : Bool) (a b : Word) : CommandWord :=
  (op ++ BitVec.ofBool m ++ a ++ b : BitVec (3 + 1 + 16 + 16))

/-- The command word of a command (30_encoding.md R46 to R49). -/
def encode (i : Instr) : CommandWord :=
  packFields i.op.toBits i.mode.toBit i.a i.b

/-- The word written as in 30_encoding.md R55: the top hexadecimal digit `2·OP + M`, then A, then B. -/
def writtenWord (top : BitVec 4) (a b : Word) : CommandWord :=
  (top ++ a ++ b : BitVec (4 + 16 + 16))

/-- The command word with the number `w` (30_encoding.md R55), where `w` is read at `nbits` bits.
A number of 2^36 or more is no command word: a wider pattern cannot be encoded (20_memory.md R33, 70_reset_and_hazards.md R111; log 6). -/
def commandWordOf (nbits w : Nat) : Option CommandWord :=
  let v := w % 2 ^ nbits
  if v < 2 ^ 36 then some (BitVec.ofNat 36 v) else none

/-- The command the decoder reads from the word with the number `w`. -/
def decodeTableWord (nbits w : Nat) : Option Instr :=
  (commandWordOf nbits w).map decode

/-- One row of spec/opcode_table.json: the words `w` with `w &&& mask = value`.
The row stands for the commands with operation `op`, and with mode `mode` if it names one. -/
structure OpcodeRow where
  op : Op
  mode : Option Mode
  value : CommandWord
  mask : CommandWord
deriving DecidableEq, Repr

/-- The thirteen rows of spec/opcode_table.json, with its match and mask words. -/
def opcodeTable : List OpcodeRow :=
  [ ⟨.add, some .unsigned, 0x000000000#36, 0xF00000000#36⟩,
    ⟨.add, some .signed, 0x100000000#36, 0xF00000000#36⟩,
    ⟨.sub, some .unsigned, 0x200000000#36, 0xF00000000#36⟩,
    ⟨.sub, some .signed, 0x300000000#36, 0xF00000000#36⟩,
    ⟨.mul, some .unsigned, 0x400000000#36, 0xF00000000#36⟩,
    ⟨.mul, some .signed, 0x500000000#36, 0xF00000000#36⟩,
    ⟨.div, some .unsigned, 0x600000000#36, 0xF00000000#36⟩,
    ⟨.div, some .signed, 0x700000000#36, 0xF00000000#36⟩,
    ⟨.neg, some .unsigned, 0x800000000#36, 0xF00000000#36⟩,
    ⟨.neg, some .signed, 0x900000000#36, 0xF00000000#36⟩,
    ⟨.reserved101, none, 0xA00000000#36, 0xE00000000#36⟩,
    ⟨.reserved110, none, 0xC00000000#36, 0xE00000000#36⟩,
    ⟨.reserved111, none, 0xE00000000#36, 0xE00000000#36⟩ ]

/-- The row's match and mask accept the word `w`. -/
def OpcodeRow.accepts (r : OpcodeRow) (w : CommandWord) : Bool := w &&& r.mask == r.value

/-- The row stands for the command `i`. -/
def OpcodeRow.names (r : OpcodeRow) (i : Instr) : Bool :=
  r.op == i.op && (match r.mode with
    | some m => m == i.mode
    | none => true)

end Sys2Proof
end

