-- ==== Sys2Proof/Machine/Fetch.lean ====
section
/-! DEFINITION. Taking the next command that the host presents (10_state.md R18, R19). -/

namespace Sys2Proof.Machine

/-- The next presented command, decoded, and the state with it taken; none where nothing is presented (log 1). -/
def takeCommand (s : State) : Option (Instr × State) :=
  match s.commands with
  | [] => none
  | w :: rest => some (decode w, { s with commands := rest })

/-- What the machine does while the host presents nothing: nothing (70_reset_and_hazards.md R110; log 2). -/
def idle (s : State) : Host.Outcome State Fault Refusal := .next s

/-- The state with the command word of number `w` presented next, or the same state if `w` is the number of no command word (log 6). -/
def presentNumber (s : State) (nbits w : Nat) : State :=
  match commandWordOf nbits w with
  | some c => s.present c
  | none => s

end Sys2Proof.Machine
end

