-- ==== Sys2Proof/Machine/Step.lean ====
section
/-! DEFINITION. One step of the machine: one whole command (00_scope.md R9). -/

namespace Sys2Proof.Machine

/-- One step takes the next presented command and produces its whole record, or a refusal for a reserved OP (00_scope.md R9,
70_reset_and_hazards.md R112). -/
def step (s : State) : Host.Outcome State Fault Refusal :=
  match takeCommand s with
  | some (i, t) => exec i t
  | none => idle s

/-- The state in which the very next step runs the command whose word has the number `w` (log 1, log 6). -/
def State.withFetchWord (s : State) (nbits w : Nat) : State := presentNumber s nbits w

end Sys2Proof.Machine
end

