-- ==== Sys2Proof/Machine/Assembler.lean ====
section
/-! DEFINITION. The assembly notation of command words and the disassembler (30_encoding.md R56 to R58, D16). Text is a list of characters. -/

namespace Sys2Proof.Machine

/-- What the assembler reports for a line that is no command (30_encoding.md R56, R57). -/
inductive AsmError where
  /-- The first word of the line is none of the ten mnemonics. -/
  | unknownMnemonic
  /-- The number of operands is not the mnemonic's. -/
  | operandCount
  /-- An operand is none of the three forms of literal. -/
  | badLiteral
  /-- A literal lies outside its range: the assembler never truncates. -/
  | outOfRange
  /-- A negative literal in a `.U` command. -/
  | negativeInUnsigned
deriving DecidableEq, Repr

/-- The characters that separate words: blank, tab, carriage return (DESIGN CHOICE, log 11). -/
def isBlank (c : Char) : Bool := c == ' ' || c == '\t' || c == '\r'

/-- The value of a decimal digit. -/
def decDigit (c : Char) : Option Nat :=
  if '0'.toNat ≤ c.toNat ∧ c.toNat ≤ '9'.toNat then some (c.toNat - '0'.toNat) else none

/-- The value of a hexadecimal digit, in either case (log 11). -/
def hexDigit (c : Char) : Option Nat :=
  if 'A'.toNat ≤ c.toNat ∧ c.toNat ≤ 'F'.toNat then some (c.toNat - 'A'.toNat + 10)
  else if 'a'.toNat ≤ c.toNat ∧ c.toNat ≤ 'f'.toNat then some (c.toNat - 'a'.toNat + 10)
  else decDigit c

/-- The number that a list of digits stands for in a base, continuing from `acc`; none if a character is no digit. -/
def digitsFrom (digit : Char → Option Nat) (base : Nat) : (acc : Nat) → List Char → Option Nat
  | acc, [] => some acc
  | acc, c :: cs =>
    match digit c with
    | some d => digitsFrom digit base (acc * base + d) cs
    | none => none

/-- The number of a nonempty list of digits. -/
def number (digit : Char → Option Nat) (base : Nat) : List Char → Option Nat
  | [] => none
  | c :: cs => digitsFrom digit base 0 (c :: cs)

/-- A hexadecimal literal after its `0x`: 1 to 4 digits, whose value is the pattern (30_encoding.md R57). -/
def hexLiteral (ds : List Char) : Except AsmError Word :=
  match number hexDigit 16 ds with
  | none => .error .badLiteral
  | some v => if ds.length ≤ 4 then .ok (BitVec.ofNat 16 v) else .error .outOfRange

/-- An unsigned decimal literal, 0 to 65535 (30_encoding.md R57). -/
def decLiteral (ds : List Char) : Except AsmError Word :=
  match number decDigit 10 ds with
  | none => .error .badLiteral
  | some v => if v ≤ 65535 then .ok (BitVec.ofNat 16 v) else .error .outOfRange

/-- A negative decimal literal after its sign, −32768 to −1, in a `.S` command only: its value is the pattern 65536 + value (30_encoding.md R57). -/
def negLiteral (m : Mode) (ds : List Char) : Except AsmError Word :=
  match number decDigit 10 ds with
  | none => .error .badLiteral
  | some v =>
    match m with
    | .unsigned => .error .negativeInUnsigned
    | .signed => if 1 ≤ v ∧ v ≤ 32768 then .ok (BitVec.ofNat 16 (65536 - v)) else .error .outOfRange

/-- An operand literal of a command with mode `m` (30_encoding.md R57). The sign is `-` or `−` (log 11). -/
def literal (m : Mode) : List Char → Except AsmError Word
  | '0' :: 'x' :: ds => hexLiteral ds
  | '-' :: ds => negLiteral m ds
  | '−' :: ds => negLiteral m ds
  | ds => decLiteral ds

/-- The OPNAME of an operation in upper case; the reserved values of OP have none (30_encoding.md R56). -/
def opName : Op → Option (List Char)
  | .add => some ['A', 'D', 'D']
  | .sub => some ['S', 'U', 'B']
  | .mul => some ['M', 'U', 'L']
  | .div => some ['D', 'I', 'V']
  | .neg => some ['N', 'E', 'G']
  | .reserved101 => none
  | .reserved110 => none
  | .reserved111 => none

/-- The MODE letter of a mode in upper case (30_encoding.md R48, R56). -/
def modeLetter : Mode → Char
  | .unsigned => 'U'
  | .signed => 'S'

/-- The operation and mode of a mnemonic, whatever its case (30_encoding.md R56). -/
def readMnemonic (cs : List Char) : Option (Op × Mode) :=
  match cs.map Char.toUpper with
  | ['A', 'D', 'D', '.', 'U'] => some (.add, .unsigned)
  | ['A', 'D', 'D', '.', 'S'] => some (.add, .signed)
  | ['S', 'U', 'B', '.', 'U'] => some (.sub, .unsigned)
  | ['S', 'U', 'B', '.', 'S'] => some (.sub, .signed)
  | ['M', 'U', 'L', '.', 'U'] => some (.mul, .unsigned)
  | ['M', 'U', 'L', '.', 'S'] => some (.mul, .signed)
  | ['D', 'I', 'V', '.', 'U'] => some (.div, .unsigned)
  | ['D', 'I', 'V', '.', 'S'] => some (.div, .signed)
  | ['N', 'E', 'G', '.', 'U'] => some (.neg, .unsigned)
  | ['N', 'E', 'G', '.', 'S'] => some (.neg, .signed)
  | _ => none

/-- A line without its comment, which runs from `;` to the end of the line (30_encoding.md R56). -/
def withoutComment (line : List Char) : List Char := line.takeWhile (· != ';')

/-- A list of characters without the blanks before and after it. -/
def trim (cs : List Char) : List Char :=
  ((cs.dropWhile isBlank).reverse.dropWhile isBlank).reverse

/-- The parts of a list of characters between its commas. -/
def commaParts : List Char → List (List Char)
  | [] => [[]]
  | c :: cs =>
    match commaParts cs with
    | [] => [[]]
    | p :: ps => if c = ',' then [] :: p :: ps else (c :: p) :: ps

/-- The two operands of ADD, SUB, MUL and DIV. -/
def twoOperands (m : Mode) (args : List (List Char)) : Except AsmError (Word × Word) :=
  match args with
  | [x, y] =>
    match literal m x with
    | .error e => .error e
    | .ok a =>
      match literal m y with
      | .error e => .error e
      | .ok b => .ok (a, b)
  | _ => .error .operandCount

/-- The one operand of NEG; the assembler sets B = 0x0000 (30_encoding.md R56). -/
def oneOperand (m : Mode) (args : List (List Char)) : Except AsmError (Word × Word) :=
  match args with
  | [x] =>
    match literal m x with
    | .error e => .error e
    | .ok a => .ok (a, 0x0000#16)
  | _ => .error .operandCount

/-- The operand fields A and B of a command with operation `op` and mode `m`. -/
def readOperands (op : Op) (m : Mode) (args : List (List Char)) : Except AsmError (Word × Word) :=
  match op with
  | .neg => oneOperand m args
  | _ => twoOperands m args

/-- One line of assembly text: one command, or none on an empty line (30_encoding.md R56; log 11). -/
def assembleLine (line : List Char) : Except AsmError (Option Instr) :=
  let body := trim (withoutComment line)
  if body.isEmpty then .ok none
  else
    match readMnemonic (body.takeWhile (fun c => !isBlank c)) with
    | none => .error .unknownMnemonic
    | some (op, m) =>
      match readOperands op m ((commaParts (body.dropWhile (fun c => !isBlank c))).map trim) with
      | .error e => .error e
      | .ok (a, b) => .ok (some (Instr.ofFields op m a b))

/-- The lines of a text. -/
def lines : List Char → List (List Char)
  | [] => [[]]
  | c :: cs =>
    match lines cs with
    | [] => [[]]
    | l :: ls => if c = '\n' then [] :: l :: ls else (c :: l) :: ls

/-- The commands of the lines, in order, up to the first error. -/
def assembleLines : List (List Char) → Except AsmError (List Instr)
  | [] => .ok []
  | l :: ls =>
    match assembleLine l with
    | .error e => .error e
    | .ok found =>
      match assembleLines ls with
      | .error e => .error e
      | .ok is => .ok (found.toList ++ is)

/-- Assembly text, one command a line (30_encoding.md R56). -/
def assemble (text : List Char) : Except AsmError (List Instr) := assembleLines (lines text)

/-- An upper-case hexadecimal digit. -/
def hexChar (d : Nat) : Char :=
  if d < 10 then Char.ofNat ('0'.toNat + d) else Char.ofNat ('A'.toNat + (d - 10))

/-- An operand as the disassembler prints it: `0x` and exactly four upper-case hexadecimal digits (30_encoding.md R56). -/
def printWord (w : Word) : List Char :=
  ['0', 'x', hexChar (w.toNat / 4096), hexChar (w.toNat / 256 % 16), hexChar (w.toNat / 16 % 16),
    hexChar (w.toNat % 16)]

/-- The operands of a command as the disassembler prints them: NEG has one (30_encoding.md R56). -/
def printOperands (op : Op) (a b : Word) : List Char :=
  match op with
  | .neg => printWord a
  | _ => printWord a ++ [',', ' '] ++ printWord b

/-- The disassembler (30_encoding.md R56): none for a reserved word, which has no mnemonic. -/
def disassemble (i : Instr) : Option (List Char) :=
  match opName i.op with
  | none => none
  | some name => some (name ++ ['.', modeLetter i.mode, ' '] ++ printOperands i.op i.a i.b)

end Sys2Proof.Machine
end

