-- ==== Sys2Proof/Machine/RecordBits.lean ====
section
/-! DEFINITION. The record as bits: the widths of 20_memory.md R35, and the positions that 60_exceptions.md R96 takes from the
field order of 10_state.md R21 to R23. DESIGN CHOICE: the first field stands highest (log 10). -/

namespace Sys2Proof.Machine

/-- The 17 bits of an AdditionResult: result, overflow (10_state.md R21). -/
def additionBits (r : AdditionResult) : BitVec 17 :=
  (r.result ++ BitVec.ofBool r.overflow : BitVec (16 + 1))

/-- The 49 bits of a MultiplicationResult: product, overflow, fullProduct (10_state.md R22). -/
def multiplicationBits (r : MultiplicationResult) : BitVec 49 :=
  (r.product ++ BitVec.ofBool r.overflow ++ r.fullProduct : BitVec (16 + 1 + 32))

/-- The 34 bits of a DivisionResult: quotient, remainder, divisionByZero, overflow (10_state.md R23). -/
def divisionBits (r : DivisionResult) : BitVec 34 :=
  (r.quotient ++ r.remainder ++ BitVec.ofBool r.divisionByZero ++ BitVec.ofBool r.overflow
    : BitVec (16 + 16 + 1 + 1))

/-- The width of a record (20_memory.md R35). -/
def recordWidth : Record → Nat
  | .addition _ => 17
  | .multiplication _ => 49
  | .division _ => 34

/-- The bits of a record, at its own width. -/
def recordBits : (r : Record) → BitVec (recordWidth r)
  | .addition r => additionBits r
  | .multiplication r => multiplicationBits r
  | .division r => divisionBits r

/-- The AdditionResult whose bits these are. -/
def additionOfBits (v : BitVec 17) : AdditionResult :=
  { result := v.extractLsb' 1 16, overflow := v.getLsbD 0 }

/-- The MultiplicationResult whose bits these are. -/
def multiplicationOfBits (v : BitVec 49) : MultiplicationResult :=
  { product := v.extractLsb' 33 16, overflow := v.getLsbD 32, fullProduct := v.extractLsb' 0 32 }

/-- The DivisionResult whose bits these are. -/
def divisionOfBits (v : BitVec 34) : DivisionResult :=
  { quotient := v.extractLsb' 18 16, remainder := v.extractLsb' 2 16
    divisionByZero := v.getLsbD 1, overflow := v.getLsbD 0 }

end Sys2Proof.Machine
end

