-- ==== Sys2Proof/Machine/WorkCount.lean ====
section
/-! DEFINITION. How much work a command does, as 70_reset_and_hazards.md R112 and R117 count it: ripple additions at each width,
and loop iterations. The counts are taken along the datapath: each command's rules are followed once more with every ripple addition
and every iteration counted where it is performed. It is a count of work, not of time: timing is not part of the model (R118; log 13). -/

namespace Sys2Proof.Machine

/-- 16-bit ripple additions, 32-bit ripple additions, loop iterations (70_reset_and_hazards.md R117). -/
structure WorkCount where
  adds16 : Nat
  adds32 : Nat
  iterations : Nat
deriving DecidableEq, Repr

/-- The work of two things done one after the other. -/
def WorkCount.plus (x y : WorkCount) : WorkCount :=
  ⟨x.adds16 + y.adds16, x.adds32 + y.adds32, x.iterations + y.iterations⟩

/-- A value, and the work done to get it. -/
structure Counted (α : Type) where
  value : α
  work : WorkCount
deriving DecidableEq, Repr

/-- A value that takes no ripple addition. -/
def Counted.free {α : Type} (x : α) : Counted α := ⟨x, ⟨0, 0, 0⟩⟩

/-- One computation and then another that uses its value. -/
def Counted.andThen {α β : Type} (x : Counted α) (f : α → Counted β) : Counted β :=
  ⟨(f x.value).value, x.work.plus (f x.value).work⟩

/-- One iteration of a loop. -/
def Counted.iteration {α : Type} (x : Counted α) : Counted α := ⟨x.value, x.work.plus ⟨0, 0, 1⟩⟩

/-- One 16-bit ripple addition (41_adder_subtractor.md R67). -/
def countedAdd16 (x y : Word) : Counted (RippleSum 16) := ⟨addN x y, ⟨1, 0, 0⟩⟩

/-- One 32-bit ripple addition (41_adder_subtractor.md R67). -/
def countedAdd32 (x y : DoubleWord) : Counted (RippleSum 32) := ⟨addN x y, ⟨0, 1, 0⟩⟩

/-- The 16-bit negator, one ripple addition (40_word_model.md R61). -/
def countedNegate16 (v : Word) : Counted Word := (countedAdd16 (~~~v) 1#16).andThen fun r => .free r.sum

/-- The 32-bit negator, one ripple addition (40_word_model.md R61). -/
def countedNegate32 (v : DoubleWord) : Counted DoubleWord := (countedAdd32 (~~~v) 1#32).andThen fun r => .free r.sum

/-- The magnitude of an operand: a negate where the recorded sign is 1 (40_word_model.md R63). -/
def countedMag (w : Word) (m : Mode) : Counted Word := if recordedSign w m then countedNegate16 w else .free w

/-- Reapplying a sign to a quotient or a remainder (43_divider.md R90). -/
def countedSign16 (s : Bool) (v : Word) : Counted Word := if s then countedNegate16 v else .free v

/-- Reapplying a sign to a product (42_multiplier.md R81). -/
def countedSign32 (s : Bool) (v : DoubleWord) : Counted DoubleWord := if s then countedNegate32 v else .free v

/-- The SUB datapath: a negate and an add (41_adder_subtractor.md R74). -/
def countedSubtract (a b : Word) : Counted (RippleSum 16) := (countedNegate16 b).andThen fun nb => countedAdd16 a nb

/-- Step `i` of the shift-and-add loop: an add where the multiplier's bit is 1 (42_multiplier.md R79). -/
def countedAccumulateStep (ma mb : Word) (acc : DoubleWord) (i : Nat) : Counted DoubleWord :=
  if mb.getLsbD i then (countedAdd32 acc (shiftedMultiplicand ma i)).andThen fun r => .free r.sum else .free acc

/-- The accumulator after its first `k` steps (42_multiplier.md R79). -/
def countedAccumulate (ma mb : Word) : Nat → Counted DoubleWord
  | 0 => .free 0#32
  | k + 1 => (countedAccumulate ma mb k).andThen fun acc => (countedAccumulateStep ma mb acc k).iteration

/-- The full product (42_multiplier.md R78, R79, R81). -/
def countedFullProduct (m : Mode) (a b : Word) : Counted DoubleWord :=
  (countedMag a m).andThen fun ma =>
  (countedMag b m).andThen fun mb =>
  (countedAccumulate ma mb Config.mulIterations).andThen fun p =>
  countedSign32 (recordedSign a m ^^ recordedSign b m) p

/-- The restoring step for dividend bit `i`, with its compare (43_divider.md R88, R89). -/
def countedRestoringStep (n d : Word) (g : DividerRegs) (i : Nat) : Counted DividerRegs :=
  (countedSubtract (bringDown g.rem n i) d).andThen fun r =>
  .free (if r.c.getLsbD 16 then { rem := r.sum, qr := g.qr ||| (1#16 <<< i) }
    else { rem := bringDown g.rem n i, qr := g.qr })

/-- REM and QR after the first `k` restoring steps (43_divider.md R88). -/
def countedRestoringLoop (n d : Word) : Nat → Counted DividerRegs
  | 0 => .free { rem := 0x0000#16, qr := 0x0000#16 }
  | k + 1 => (countedRestoringLoop n d k).andThen fun g => (countedRestoringStep n d g (15 - k)).iteration

/-- The record of a division whose divisor is not zero (43_divider.md R87 to R91). -/
def countedQuotient (m : Mode) (a b : Word) : Counted DivisionResult :=
  (countedMag a m).andThen fun n =>
  (countedMag b m).andThen fun d =>
  (countedRestoringLoop n d Config.divIterations).andThen fun g =>
  (countedSign16 (recordedSign a m ^^ recordedSign b m) g.qr).andThen fun q =>
  (countedSign16 (recordedSign a m) g.rem).andThen fun r =>
  .free { quotient := q, remainder := r, divisionByZero := false, overflow := divOverflow m a b }

/-- DIV: a division by zero stops at once, with its draws (43_divider.md R86; `n` names the draws, log 4). -/
def countedDivide (m : Mode) (a b : Word) (n : Nat) : Counted DivisionResult :=
  if b = 0x0000#16 then .free (divisionByZeroRecord (Config.dzQuotient n m a) (Config.dzRemainder n m a))
  else countedQuotient m a b

/-- The record of a command, and the work done for it; none for a reserved OP, which is no command. -/
def countedRecord (i : Instr) (n : Nat) : Option (Counted Record) :=
  match i with
  | .negU a _ => some ((countedNegate16 a).andThen fun r => .free (.addition ⟨r, negOverflowU a⟩))
  | .negS a _ => some ((countedNegate16 a).andThen fun r => .free (.addition ⟨r, negOverflowS a⟩))
  | .addU a b => some ((countedAdd16 a b).andThen fun r => .free (.addition ⟨r.sum, unsignedAddOverflow r⟩))
  | .addS a b => some ((countedAdd16 a b).andThen fun r => .free (.addition ⟨r.sum, signedAddOverflow r⟩))
  | .subU a b => some ((countedSubtract a b).andThen fun r => .free (.addition ⟨r.sum, subOverflowU b r⟩))
  | .subS a b => some ((countedSubtract a b).andThen fun r => .free (.addition ⟨r.sum, subOverflowS a b r.sum⟩))
  | .mulU a b => some ((countedFullProduct .unsigned a b).andThen fun p =>
      .free (.multiplication ⟨p.extractLsb' 0 16, mulOverflowU p, p⟩))
  | .mulS a b => some ((countedFullProduct .signed a b).andThen fun p =>
      .free (.multiplication ⟨p.extractLsb' 0 16, mulOverflowS p, p⟩))
  | .divU a b => some ((countedDivide .unsigned a b n).andThen fun r => .free (.division r))
  | .divS a b => some ((countedDivide .signed a b n).andThen fun r => .free (.division r))
  | .reservedOp101 _ _ _ => none
  | .reservedOp110 _ _ _ => none
  | .reservedOp111 _ _ _ => none

/-- The work of a command (70_reset_and_hazards.md R112, R117); none for a reserved OP. No count depends on which draws are taken. -/
def work (i : Instr) : Option WorkCount := (countedRecord i 0).map Counted.work

/-- How many of the first `k` bits of a vector are 1. -/
def onesBelow {n : Nat} (v : BitVec n) : Nat → Nat
  | 0 => 0
  | k + 1 => onesBelow v k + (v.getLsbD k).toNat

/-- popcount (70_reset_and_hazards.md R117). -/
def popcount {n : Nat} (v : BitVec n) : Nat := onesBelow v n

end Sys2Proof.Machine
end

