-- ==== Sys2Proof/Safety.lean ====
section
/-! DEFINITION. What the host owes the block (70_reset_and_hazards.md R111, R114), what a record of the block holds, and the record of a command alone. -/

namespace Sys2Proof.Machine

/-- The host keeps its duty 3 for everything it has presented: no reserved OP (70_reset_and_hazards.md R111). -/
def State.commandsOnly (s : State) : Bool := s.commands.all fun w => (decode w).wellFormed

/-- The flag `overflow`, a field of every kind of record (10_state.md R24). -/
def Record.overflow : Record → Bool
  | .addition r => r.overflow
  | .multiplication r => r.overflow
  | .division r => r.overflow

/-- The flag `divisionByZero` of a DivisionResult; the other kinds have no such field, so it is not set (10_state.md R20, R24). -/
def Record.divisionByZero : Record → Bool
  | .addition _ => false
  | .multiplication _ => false
  | .division r => r.divisionByZero

/-- The quotient a host may read: it must test `divisionByZero` first (70_reset_and_hazards.md R114, 10_state.md R31). -/
def DivisionResult.readQuotient (r : DivisionResult) : Option Word :=
  if r.divisionByZero then none else some r.quotient

/-- The remainder a host may read (70_reset_and_hazards.md R114, 10_state.md R31). -/
def DivisionResult.readRemainder (r : DivisionResult) : Option Word :=
  if r.divisionByZero then none else some r.remainder

/-- Two records are the same, field for field, but for the draws of a division by zero (20_memory.md R36). -/
def Record.sameButDraws : Record → Record → Bool
  | .division r, .division r' =>
    r.divisionByZero == r'.divisionByZero && r.overflow == r'.overflow &&
      (r.divisionByZero || (r.quotient == r'.quotient && r.remainder == r'.remainder))
  | r, r' => r == r'

/-- The command is a division whose divisor is 0x0000: the one command that draws (43_divider.md R86). -/
def drawsFreeValues (i : Instr) : Bool := i.op == .div && i.b == 0x0000#16

/-- What every MultiplicationResult satisfies: the product is the low half of the full product; without overflow the full product
is the product widened, by zeros (42_multiplier.md R82) or by its sign (R83), and with overflow one of the two fails. -/
def MultiplicationResult.consistent (r : MultiplicationResult) : Bool :=
  let byZeros := r.fullProduct == r.product.setWidth 32
  let bySign := r.fullProduct == r.product.signExtend 32
  r.product == r.fullProduct.extractLsb' 0 16 &&
    (if r.overflow then !(byZeros && bySign) else byZeros || bySign)

/-- What every DivisionResult satisfies: the two conditions never hold together (60_exceptions.md R98), and overflow comes with
the wrapped quotient 0x8000 and the remainder 0x0000 alone (43_divider.md R91). -/
def DivisionResult.consistent (r : DivisionResult) : Bool :=
  !(r.divisionByZero && r.overflow) &&
    (!r.overflow || (r.quotient == 0x8000#16 && r.remainder == 0x0000#16))

/-- What every record of the block satisfies. -/
def Record.consistent : Record → Bool
  | .addition _ => true
  | .multiplication r => r.consistent
  | .division r => r.consistent

/-- The record in the state, if a command has produced one, is a record of the block. -/
def State.recordConsistent (s : State) : Bool := s.record.all Record.consistent

/-- The record that the command word `w` produces when it is the only command of a fresh block whose next draw is the `n`-th;
none if it is refused (20_memory.md R39: the record that command would have produced alone). -/
def aloneRecord (w : CommandWord) (n : Nat) : Option Record :=
  match step { commands := [w], record := none, drawIndex := n } with
  | .next t => t.record
  | .fault _ => none
  | .refused _ => none

end Sys2Proof.Machine
end

