-- ==== Sys2Proof/Certificates/Slice0/Obligations.lean ====
section
/-! DEFINITION. The statements about the model, for the provers. -/

open Sys2Proof Sys2Proof.Machine

/-! ## Encoding and decoding -/

/-- Words written out in 95_test_vectors.md §2.7, §2.11, §2.13 and §3.4 decode to the commands they stand for. That a reserved word, which
§2.13 gives as refused, decodes to a command that carries M, A and B is the model's (log 5, DEDUCED; the step refuses it), and so is that
a NEG command carries its ignored field B (log 7, DESIGN CHOICE). -/
def Obligations.WordsWrittenOutDecode : Prop :=
  decode 0x0FFFF0001#36 = .addU 0xFFFF#16 0x0001#16 ∧
  decode 0x17FFF0001#36 = .addS 0x7FFF#16 0x0001#16 ∧
  decode 0x200030005#36 = .subU 0x0003#16 0x0005#16 ∧
  decode 0x380000001#36 = .subS 0x8000#16 0x0001#16 ∧
  decode 0x401000100#36 = .mulU 0x0100#16 0x0100#16 ∧
  decode 0x5FFFD0002#36 = .mulS 0xFFFD#16 0x0002#16 ∧
  decode 0x612340010#36 = .divU 0x1234#16 0x0010#16 ∧
  decode 0x78000FFFF#36 = .divS 0x8000#16 0xFFFF#16 ∧
  decode 0x80001FFFF#36 = .negU 0x0001#16 0xFFFF#16 ∧
  decode 0x9FFD60000#36 = .negS 0xFFD6#16 0x0000#16 ∧
  decode 0xB12345678#36 = .reservedOp101 .signed 0x1234#16 0x5678#16 ∧
  decode 0xDFFFFFFFF#36 = .reservedOp110 .signed 0xFFFF#16 0xFFFF#16 ∧
  decode 0xE00010001#36 = .reservedOp111 .unsigned 0x0001#16 0x0001#16

/-- 30_encoding.md R46: the command word has OP in bits 35:33, M in bit 32, A in bits 31:16 and B in bits 15:0. -/
def Obligations.CommandWordFields : Prop :=
  ∀ i : Instr,
    (∀ k, k < 3 → (encode i).getLsbD (33 + k) = i.op.toBits.getLsbD k) ∧
    (encode i).getLsbD 32 = i.mode.toBit ∧
    (∀ k, k < 16 → (encode i).getLsbD (16 + k) = i.a.getLsbD k) ∧
    (∀ k, k < 16 → (encode i).getLsbD k = i.b.getLsbD k)

/-- 30_encoding.md §1 (R45 calls the packing of R46 a bijection): decoding the word of a command gives that command back, with
every operand at every value and either mode; reserved values of OP, and field B of NEG, among them (log 7). -/
def Obligations.DecodeOfEncode : Prop :=
  ∀ i : Instr, decode (encode i) = i

/-- 30_encoding.md §1 and §3: encoding what a word decodes to gives that word back, for each of the 2^36 words (log 7). -/
def Obligations.EncodeOfDecode : Prop :=
  ∀ w : CommandWord, encode (decode w) = w

/-- 30_encoding.md §4, R55's sentence [derived: from rule R46 and rule R47]: the word as a number, its top hexadecimal digit, and its
other digits. -/
def Obligations.CommandWordAsNumber : Prop :=
  ∀ i : Instr,
    (encode i).toNat = i.op.toBits.toNat * 2 ^ 33 + i.mode.toBit.toNat * 2 ^ 32 + uint i.a * 2 ^ 16 + uint i.b ∧
    (encode i).toNat / 2 ^ 32 = 2 * i.op.toBits.toNat + i.mode.toBit.toNat ∧
    decodeTableWord 36 (encode i).toNat = some i ∧ decodeTableWord 40 (encode i).toNat = some i

/-- 30_encoding.md R52: every word selects exactly one of the ten commands, or a refusal, by its field OP. The refusal is the step's. -/
def Obligations.DecodingIsTotal : Prop :=
  ∀ (op : BitVec 3) (m : Mode) (a b : Word),
    let w := packFields op m.toBit a b
    (op = 0b000#3 → decode w = if m = .signed then .addS a b else .addU a b) ∧
    (op = 0b001#3 → decode w = if m = .signed then .subS a b else .subU a b) ∧
    (op = 0b010#3 → decode w = if m = .signed then .mulS a b else .mulU a b) ∧
    (op = 0b011#3 → decode w = if m = .signed then .divS a b else .divU a b) ∧
    (op = 0b100#3 → decode w = if m = .signed then .negS a b else .negU a b) ∧
    (op = 0b101#3 ∨ op = 0b110#3 ∨ op = 0b111#3 →
      ∀ s : State, step (s.present w) = .refused (.reservedOp op))

/-- 30_encoding.md §3 and spec/opcode_table.json: of the table's thirteen rows of match and mask exactly one accepts a word, and it is
the row of the command the word decodes to. -/
def Obligations.OpcodeTableAgreesWithDecoder : Prop :=
  ∀ w : CommandWord,
    (∀ row ∈ opcodeTable, row.accepts w = row.names (decode w)) ∧
    (opcodeTable.filter fun row => row.accepts w).length = 1

/-- 30_encoding.md R53 (the spec's decision D5): a word with OP 101, 110 or 111 is refused, whatever M, A and B hold. The three
commands stop so in every state, and the run that presents such a word has no next state from there on. That the refused outcome is the
spec's refusal mark on the run is the model's reading (log 5, DEDUCED), and the list of presented words is its choice (log 1). -/
def Obligations.ReservedWordsRefused : Prop :=
  (∀ (m : Mode) (a b : Word) (s : State),
    exec (.reservedOp101 m a b) s = .refused (.reservedOp 0b101#3) ∧
    exec (.reservedOp110 m a b) s = .refused (.reservedOp 0b110#3) ∧
    exec (.reservedOp111 m a b) s = .refused (.reservedOp 0b111#3)) ∧
  (∀ (w : CommandWord) (s : State) (k : Nat),
    (opField w = 0b101#3 ∨ opField w = 0b110#3 ∨ opField w = 0b111#3) →
    Sys2Proof.core.run (k + 1) (s.present w) = .refused (.reservedOp (opField w)))

/-- 30_encoding.md R51: field B of a NEG word is ignored: any value is accepted, none is refused, and none affects the record. The
assembler writes 0x0000 there. -/
def Obligations.NegIgnoresFieldB : Prop :=
  (∀ (m : Mode) (a b b' : Word) (s : State),
    ∃ t, step (s.present (packFields 0b100#3 m.toBit a b)) = .next t ∧
      step (s.present (packFields 0b100#3 m.toBit a b')) = .next t) ∧
  (∀ (line : List Char) (i : Instr), assembleLine line = .ok (some i) → i.op = .neg → i.b = 0x0000#16)

/-! ## The step -/

/-- 00_scope.md §5 and 30_encoding.md §3: a step runs the command that the next presented word decodes to, on the state with that word
taken. That presented words stand in a list, the next one first, is the model's choice (log 1). -/
def Obligations.StepRunsTheDecodedCommand : Prop :=
  ∀ (s : State) (w : CommandWord) (rest : List CommandWord), s.commands = w :: rest →
    step s = exec (decode w) { s with commands := rest }

/-- The model's choice (log 2): while the host presents nothing, a step changes nothing. -/
def Obligations.NothingPresentedNothingDone : Prop :=
  ∀ s : State, s.commands = [] → step s = .next s

/-- The model's choice (log 1, log 6): a word placed with withFetchWord is the command that the very next step runs, on the state as it was. -/
def Obligations.PlacedWordRunsNext : Prop :=
  ∀ (s : State) (nbits w : Nat) (i : Instr), decodeTableWord nbits w = some i →
    step (s.withFetchWord nbits w) = exec i s

/-- 60_exceptions.md R95: every command over every input produces its result record. The one exception is a reserved OP, which is
refused; nothing else stops, in any state. That presented words stand in a list, and that a step has a next state where the list is
empty, are the model's choices (log 1, log 2). -/
def Obligations.EveryCommandProducesItsRecord : Prop :=
  (∀ (i : Instr) (s : State), i.WellFormed → ∃ t r, exec i s = .next t ∧ t.record = some r) ∧
  (∀ (i : Instr) (s : State), ¬ i.WellFormed → exec i s = .refused (.reservedOp i.op.toBits)) ∧
  (∀ s : State, (∃ t, step s = .next t) ∨
    ∃ w rest, s.commands = w :: rest ∧ ¬ (decode w).WellFormed ∧ step s = .refused (.reservedOp (opField w)))

/-- 10_state.md R20: the record is one of three kinds, and OP alone selects the kind. -/
def Obligations.OpSelectsTheRecordKind : Prop :=
  ∀ (w : CommandWord) (s : State),
    match Op.ofBits (opField w) with
    | .neg | .add | .sub => ∃ t r, step (s.present w) = .next t ∧ t.record = some (.addition r)
    | .mul => ∃ t r, step (s.present w) = .next t ∧ t.record = some (.multiplication r)
    | .div => ∃ t r, step (s.present w) = .next t ∧ t.record = some (.division r)
    | .reserved101 | .reserved110 | .reserved111 => step (s.present w) = .refused (.reservedOp (opField w))

/-- 10_state.md R16: the record is a function of the command's fields OP, M, A and B alone, whatever the state before it, with the
draws of a division by zero as the one exception. -/
def Obligations.RecordDependsOnTheCommandAlone : Prop :=
  ∀ (w : CommandWord) (s s' : State), (decode w).WellFormed →
    ∃ t t' r r', step (s.present w) = .next t ∧ step (s'.present w) = .next t' ∧
      t.record = some r ∧ t'.record = some r' ∧ r.sameButDraws r' = true ∧
      (drawsFreeValues (decode w) = false → r = r')

/-- 20_memory.md R36: a command has no side effect beyond its record, and repeating it gives the same record but for the draws of a DIV
with B = 0x0000. The counter that names the draws, and that a division by zero moves on by one, is the model's own (log 4, DESIGN CHOICE),
and so is the list of presented words (log 1). -/
def Obligations.CommandsAreIdempotent : Prop :=
  ∀ (w : CommandWord) (s : State), (decode w).WellFormed →
    ∃ t t' r r', step (s.present w) = .next t ∧ step (t.present w) = .next t' ∧
      t.record = some r ∧ t'.record = some r' ∧ r.sameButDraws r' = true ∧
      (drawsFreeValues (decode w) = false → t = s.deliver r ∧ t' = t) ∧
      (drawsFreeValues (decode w) = true → t = s.nextDraw.deliver r ∧ t' = t.nextDraw.deliver r')

/-! ## The Word model -/

/-- 00_scope.md §6 (R11's formulas are general knowledge, G1) and 40_word_model.md §1: the two interpretations of a Word, their
ranges, and the sign bit. -/
def Obligations.WordInterpretations : Prop :=
  ∀ w : Word,
    uint w ≤ 65535 ∧ -32768 ≤ sint w ∧ sint w ≤ 32767 ∧
    (sint w < 0 ↔ sign w = true) ∧
    (sign w = false → sint w = uint w) ∧ (sign w = true → sint w = (uint w : Int) - 65536)

/-- 40_word_model.md §1, R62's corner values and laws of the negator [derived], at 16 and at 32 bits. -/
def Obligations.NegatorLaws : Prop :=
  negate 0x0000#16 = 0x0000#16 ∧ negate 0x8000#16 = 0x8000#16 ∧
  negate 0xFFFF#16 = 0x0001#16 ∧ negate 0x0001#16 = 0xFFFF#16 ∧
  (∀ w : Word, negate (negate w) = w ∧ uint (negate w) = (65536 - uint w) % 65536) ∧
  (∀ v : DoubleWord, negate (negate v) = v ∧ uint (negate v) = (2 ^ 32 - uint v) % 2 ^ 32)

/-- 40_word_model.md §1, R63's sentences on the magnitude [derived]. -/
def Obligations.MagnitudeIsTheAbsoluteValue : Prop :=
  ∀ w : Word,
    uint (mag w .signed) = (sint w).natAbs ∧ uint (mag w .signed) ≤ 32768 ∧
    mag w .unsigned = w ∧ mag 0x8000#16 .signed = 0x8000#16 ∧
    ∀ m : Mode, mag w m = 0x0000#16 ↔ w = 0x0000#16

/-- 40_word_model.md §2, NEG.U: encoding, result and flag, corner cases, closed form [derived], example, and its equality with SUB.U of
0x0000. Everything but the record stays as it was. -/
def Obligations.NegUnsigned : Prop :=
  ∀ (a b : Word) (s : State),
    decode (writtenWord 0x8#4 a b) = .negU a b ∧
    (∃ r : AdditionResult, exec (.negU a b) s = .next (s.deliver (.addition r)) ∧
      r.result = negate a ∧ uint r.result = (65536 - uint a) % 65536 ∧
      (r.overflow = true ↔ 0 < uint a)) ∧
    exec (.negU a b) s = exec (.subU 0x0000#16 a) s ∧
    exec (.negU 0x0000#16 b) s = .next (s.deliver (.addition ⟨0x0000#16, false⟩)) ∧
    exec (.negU 0x8000#16 b) s = .next (s.deliver (.addition ⟨0x8000#16, true⟩)) ∧
    exec (.negU 0xFFFF#16 b) s = .next (s.deliver (.addition ⟨0x0001#16, true⟩)) ∧
    exec (.negU 0x0001#16 b) s = .next (s.deliver (.addition ⟨0xFFFF#16, true⟩))

/-- 40_word_model.md §2, NEG.S: encoding, result and flag, corner cases, closed form [derived], example, and its equality with SUB.S of
0x0000. Everything but the record stays as it was. -/
def Obligations.NegSigned : Prop :=
  ∀ (a b : Word) (s : State),
    decode (writtenWord 0x9#4 a b) = .negS a b ∧
    (∃ r : AdditionResult, exec (.negS a b) s = .next (s.deliver (.addition r)) ∧
      r.result = negate a ∧ (a ≠ 0x8000#16 → sint r.result = - sint a) ∧
      (r.overflow = true ↔ (- sint a < -32768 ∨ 32767 < - sint a)) ∧
      (r.overflow = true ↔ a = 0x8000#16)) ∧
    exec (.negS a b) s = exec (.subS 0x0000#16 a) s ∧
    exec (.negS 0x8000#16 b) s = .next (s.deliver (.addition ⟨0x8000#16, true⟩)) ∧
    exec (.negS 0x0000#16 b) s = .next (s.deliver (.addition ⟨0x0000#16, false⟩)) ∧
    exec (.negS 0x7FFF#16 b) s = .next (s.deliver (.addition ⟨0x8001#16, false⟩)) ∧
    exec (.negS 0xFFFF#16 b) s = .next (s.deliver (.addition ⟨0x0001#16, false⟩)) ∧
    exec (.negS 0xFFD6#16 b) s = .next (s.deliver (.addition ⟨0x002A#16, false⟩))

/-! ## The adder and the subtractor -/

/-- 41_adder_subtractor.md §1, R71's closed forms of the ripple adder [derived], at every width. -/
def Obligations.AdderClosedForms : Prop :=
  (∀ (n : Nat) (x y : BitVec n),
    uint (addN x y).sum = (uint x + uint y) % 2 ^ n ∧
    ((addN x y).c.getLsbD n = true ↔ 2 ^ n ≤ uint x + uint y)) ∧
  (∀ x y : Word, signedAddOverflow (addN x y) = true ↔
    (sint x + sint y < -32768 ∨ 32767 < sint x + sint y))

/-- 41_adder_subtractor.md R70: signed overflow of a 16-bit add is 1 exactly when the operands share a sign and the sum's sign differs
from theirs. -/
def Obligations.SignedOverflowIsASignChange : Prop :=
  ∀ x y : Word,
    signedAddOverflow (addN x y) = ((addN x y).c.getLsbD 15 ^^ (addN x y).c.getLsbD 16) ∧
    (signedAddOverflow (addN x y) = true ↔
      x.getLsbD 15 = y.getLsbD 15 ∧ (addN x y).sum.getLsbD 15 ≠ x.getLsbD 15)

/-- 41_adder_subtractor.md R72, ADD.U: encoding, sum and flag, corner cases, closed form, example. Everything but the record stays as it was. -/
def Obligations.AddUnsigned : Prop :=
  ∀ (a b : Word) (s : State),
    decode (writtenWord 0x0#4 a b) = .addU a b ∧
    (∃ r : AdditionResult, exec (.addU a b) s = .next (s.deliver (.addition r)) ∧
      r.result = (addN a b).sum ∧ r.overflow = (addN a b).c.getLsbD 16 ∧
      uint r.result = (uint a + uint b) % 65536 ∧ (r.overflow = true ↔ 65536 ≤ uint a + uint b)) ∧
    exec (.addU a 0x0000#16) s = .next (s.deliver (.addition ⟨a, false⟩)) ∧
    exec (.addU 0x0000#16 b) s = .next (s.deliver (.addition ⟨b, false⟩)) ∧
    exec (.addU 0x8000#16 0x8000#16) s = .next (s.deliver (.addition ⟨0x0000#16, true⟩)) ∧
    exec (.addU 0xFFFF#16 0xFFFF#16) s = .next (s.deliver (.addition ⟨0xFFFE#16, true⟩)) ∧
    exec (.addU 0xFFFF#16 0x0001#16) s = .next (s.deliver (.addition ⟨0x0000#16, true⟩))

/-- 41_adder_subtractor.md R73, ADD.S: encoding, sum and flag, corner cases, closed form, example. Everything but the record stays as it was. -/
def Obligations.AddSigned : Prop :=
  ∀ (a b : Word) (s : State),
    decode (writtenWord 0x1#4 a b) = .addS a b ∧
    (∃ r : AdditionResult, exec (.addS a b) s = .next (s.deliver (.addition r)) ∧
      r.result = (addN a b).sum ∧ r.overflow = ((addN a b).c.getLsbD 15 ^^ (addN a b).c.getLsbD 16) ∧
      r.result = BitVec.ofInt 16 (sint a + sint b) ∧
      (r.overflow = true ↔ (sint a + sint b < -32768 ∨ 32767 < sint a + sint b)) ∧
      (sign a ≠ sign b → r.overflow = false)) ∧
    exec (.addS 0x8000#16 0x8000#16) s = .next (s.deliver (.addition ⟨0x0000#16, true⟩)) ∧
    exec (.addS 0x8000#16 0xFFFF#16) s = .next (s.deliver (.addition ⟨0x7FFF#16, true⟩)) ∧
    exec (.addS 0x7FFF#16 0x8000#16) s = .next (s.deliver (.addition ⟨0xFFFF#16, false⟩)) ∧
    exec (.addS 0x7FFF#16 0x0001#16) s = .next (s.deliver (.addition ⟨0x8000#16, true⟩))

/-- 41_adder_subtractor.md §3, SUB.U: encoding, difference and flag in gate form and as a borrow [derived], corner cases, example.
Everything but the record stays as it was. -/
def Obligations.SubUnsigned : Prop :=
  ∀ (a b : Word) (s : State),
    decode (writtenWord 0x2#4 a b) = .subU a b ∧
    (∃ r : AdditionResult, exec (.subU a b) s = .next (s.deliver (.addition r)) ∧
      r.result = (addN a (negate b)).sum ∧
      r.overflow = ((b != 0x0000#16) && !(addN a (negate b)).c.getLsbD 16) ∧
      (uint r.result : Int) = ((uint a : Int) - uint b) % 65536 ∧
      (r.overflow = true ↔ uint a < uint b)) ∧
    exec (.subU a a) s = .next (s.deliver (.addition ⟨0x0000#16, false⟩)) ∧
    exec (.subU a 0x0000#16) s = .next (s.deliver (.addition ⟨a, false⟩)) ∧
    exec (.subU 0x0000#16 0x0001#16) s = .next (s.deliver (.addition ⟨0xFFFF#16, true⟩)) ∧
    exec (.subU 0x0000#16 0x8000#16) s = .next (s.deliver (.addition ⟨0x8000#16, true⟩)) ∧
    exec (.subU 0x0003#16 0x0005#16) s = .next (s.deliver (.addition ⟨0xFFFE#16, true⟩))

/-- 41_adder_subtractor.md §3, SUB.S: encoding, difference and flag in gate form and as the exact rule [derived], corner cases, example.
Everything but the record stays as it was. -/
def Obligations.SubSigned : Prop :=
  ∀ (a b : Word) (s : State),
    decode (writtenWord 0x3#4 a b) = .subS a b ∧
    (∃ r : AdditionResult, exec (.subS a b) s = .next (s.deliver (.addition r)) ∧
      r.result = (addN a (negate b)).sum ∧
      r.overflow = ((a.getLsbD 15 != b.getLsbD 15) && (r.result.getLsbD 15 != a.getLsbD 15)) ∧
      r.result = BitVec.ofInt 16 (sint a - sint b) ∧
      (r.overflow = true ↔ (sint a - sint b < -32768 ∨ 32767 < sint a - sint b))) ∧
    exec (.subS a a) s = .next (s.deliver (.addition ⟨0x0000#16, false⟩)) ∧
    exec (.subS 0x0000#16 0x8000#16) s = .next (s.deliver (.addition ⟨0x8000#16, true⟩)) ∧
    exec (.subS 0xFFFF#16 0x8000#16) s = .next (s.deliver (.addition ⟨0x7FFF#16, false⟩)) ∧
    exec (.subS 0x7FFF#16 0xFFFF#16) s = .next (s.deliver (.addition ⟨0x8000#16, true⟩)) ∧
    exec (.subS 0x8000#16 0x0001#16) s = .next (s.deliver (.addition ⟨0x7FFF#16, true⟩))

/-- 41_adder_subtractor.md §3, R77 [derived]: subtraction undoes addition in both modes, whether or not the addition overflowed. -/
def Obligations.SubtractionUndoesAddition : Prop :=
  ∀ (a b : Word) (s : State),
    (∃ r r', exec (.addU a b) s = .next (s.deliver (.addition r)) ∧
      exec (.subU r.result b) s = .next (s.deliver (.addition r')) ∧ r'.result = a) ∧
    (∃ r r', exec (.addS a b) s = .next (s.deliver (.addition r)) ∧
      exec (.subS r.result b) s = .next (s.deliver (.addition r')) ∧ r'.result = a)

/-- 41_adder_subtractor.md §3 and 90_conflicts.md C1, C2 [derived]: where the source's literal carry tests differ from the flags of SUB.
For SUB.U the carry is the inverse of the flag for every B but 0x0000. For SUB.S the carry test is right for every B but 0x8000, and
there it is wrong for every A. -/
def Obligations.LiteralCarryTestsOfSubtraction : Prop :=
  ∀ a b : Word,
    (b ≠ 0x0000#16 → subUCarryReading (subtract a b) = !subOverflowU b (subtract a b)) ∧
    (b ≠ 0x8000#16 → subSCarryReading (subtract a b) = subOverflowS a b (subtract a b).sum) ∧
    (b = 0x8000#16 → subOverflowS a b (subtract a b).sum = !a.getLsbD 15 ∧
      subSCarryReading (subtract a b) = !subOverflowS a b (subtract a b).sum)

/-! ## The multiplier -/

/-- 42_multiplier.md §1, R80 [derived]: no add of the shift-and-add loop carries out of bit 31, the magnitude product is exact, and in
signed mode it is at most 2^30. -/
def Obligations.AccumulatorNeverOverflows : Prop :=
  (∀ (ma mb : Word) (i : Nat), i < 16 →
    (accumulatorAdd ma (accumulate ma mb i) i).c.getLsbD 32 = false) ∧
  (∀ ma mb : Word, uint (magnitudeProduct ma mb) = uint ma * uint mb) ∧
  (∀ a b : Word, uint (magnitudeProduct (mag a .signed) (mag b .signed)) ≤ 2 ^ 30)

/-- 42_multiplier.md §2, MUL.U: encoding, product and flag, corner cases, closed form [derived], example. Everything but the record stays as it was. -/
def Obligations.MulUnsigned : Prop :=
  ∀ (a b : Word) (s : State),
    decode (writtenWord 0x4#4 a b) = .mulU a b ∧
    (∃ r : MultiplicationResult, exec (.mulU a b) s = .next (s.deliver (.multiplication r)) ∧
      r.fullProduct = magnitudeProduct a b ∧ r.product = r.fullProduct.extractLsb' 0 16 ∧
      (r.overflow = true ↔ r.fullProduct.extractLsb' 16 16 ≠ 0x0000#16) ∧
      uint r.fullProduct = uint a * uint b ∧ uint r.product = (uint a * uint b) % 65536 ∧
      (r.overflow = true ↔ 65536 ≤ uint a * uint b)) ∧
    exec (.mulU a 0x0000#16) s = .next (s.deliver (.multiplication ⟨0x0000#16, false, 0x00000000#32⟩)) ∧
    exec (.mulU 0x0000#16 b) s = .next (s.deliver (.multiplication ⟨0x0000#16, false, 0x00000000#32⟩)) ∧
    exec (.mulU a 0x0001#16) s = .next (s.deliver (.multiplication ⟨a, false, a.setWidth 32⟩)) ∧
    exec (.mulU 0x0001#16 b) s = .next (s.deliver (.multiplication ⟨b, false, b.setWidth 32⟩)) ∧
    exec (.mulU 0xFFFF#16 0xFFFF#16) s = .next (s.deliver (.multiplication ⟨0x0001#16, true, 0xFFFE0001#32⟩)) ∧
    exec (.mulU 0x00FF#16 0x0101#16) s = .next (s.deliver (.multiplication ⟨0xFFFF#16, false, 0x0000FFFF#32⟩)) ∧
    exec (.mulU 0x0100#16 0x0100#16) s = .next (s.deliver (.multiplication ⟨0x0000#16, true, 0x00010000#32⟩))

/-- 42_multiplier.md §2, MUL.S: encoding, product and flag, corner cases, closed form [derived], example. Everything but the record stays as it was. -/
def Obligations.MulSigned : Prop :=
  ∀ (a b : Word) (s : State),
    decode (writtenWord 0x5#4 a b) = .mulS a b ∧
    (∃ r : MultiplicationResult, exec (.mulS a b) s = .next (s.deliver (.multiplication r)) ∧
      r.product = r.fullProduct.extractLsb' 0 16 ∧
      (r.overflow = true ↔ ¬ ∀ k, 15 ≤ k → k ≤ 31 → r.fullProduct.getLsbD k = r.product.getLsbD 15) ∧
      sint r.fullProduct = sint a * sint b ∧
      (r.overflow = true ↔ (sint a * sint b < -32768 ∨ 32767 < sint a * sint b))) ∧
    exec (.mulS 0x8000#16 0xFFFF#16) s = .next (s.deliver (.multiplication ⟨0x8000#16, true, 0x00008000#32⟩)) ∧
    exec (.mulS 0x8000#16 0x0001#16) s = .next (s.deliver (.multiplication ⟨0x8000#16, false, 0xFFFF8000#32⟩)) ∧
    exec (.mulS 0x8000#16 0x8000#16) s = .next (s.deliver (.multiplication ⟨0x0000#16, true, 0x40000000#32⟩)) ∧
    exec (.mulS 0xFFFF#16 0xFFFF#16) s = .next (s.deliver (.multiplication ⟨0x0001#16, false, 0x00000001#32⟩)) ∧
    exec (.mulS 0x00B5#16 0x00B5#16) s = .next (s.deliver (.multiplication ⟨0x7FF9#16, false, 0x00007FF9#32⟩)) ∧
    exec (.mulS 0x00B6#16 0x00B6#16) s = .next (s.deliver (.multiplication ⟨0x8164#16, true, 0x00008164#32⟩)) ∧
    exec (.mulS 0x0000#16 0x8000#16) s = .next (s.deliver (.multiplication ⟨0x0000#16, false, 0x00000000#32⟩)) ∧
    exec (.mulS 0xFFFD#16 0x0007#16) s = .next (s.deliver (.multiplication ⟨0xFFEB#16, false, 0xFFFFFFEB#32⟩))

/-- 42_multiplier.md §2, R84 [derived]: MUL is commutative field for field in both modes, its low half does not depend on the mode, and
its full product and its flag do. -/
def Obligations.MultiplicationLaws : Prop :=
  (∀ (a b : Word) (s : State),
    (∃ r r' : MultiplicationResult,
      exec (.mulU a b) s = .next (s.deliver (.multiplication r)) ∧
      exec (.mulU b a) s = .next (s.deliver (.multiplication r)) ∧
      exec (.mulS a b) s = .next (s.deliver (.multiplication r')) ∧
      exec (.mulS b a) s = .next (s.deliver (.multiplication r')) ∧
      r.product = r'.product)) ∧
  (∃ (a b : Word), ∀ s : State, ∃ r r' : MultiplicationResult,
      exec (.mulU a b) s = .next (s.deliver (.multiplication r)) ∧
      exec (.mulS a b) s = .next (s.deliver (.multiplication r')) ∧
      r.fullProduct ≠ r'.fullProduct ∧ r.overflow ≠ r'.overflow)

/-! ## The divider -/

/-- 43_divider.md R86 (the spec's decisions D9 and D20): division by zero is checked first, in both modes. With B = 0x0000 the flag is 1,
the quotient and the remainder are draws, overflow is 0, and nothing else changes; otherwise the flag is 0. That the draws are the opaque
constants of Config at the model's counter, the mode and the dividend, and that the counter moves on by one, is the model's choice
(log 4, DESIGN CHOICE). -/
def Obligations.DivisionByZeroIsReported : Prop :=
  (∀ (a : Word) (s : State),
    exec (.divU a 0x0000#16) s = .next (s.nextDraw.deliver (.division
      { quotient := Config.dzQuotient s.drawIndex .unsigned a, remainder := Config.dzRemainder s.drawIndex .unsigned a
        divisionByZero := true, overflow := false })) ∧
    exec (.divS a 0x0000#16) s = .next (s.nextDraw.deliver (.division
      { quotient := Config.dzQuotient s.drawIndex .signed a, remainder := Config.dzRemainder s.drawIndex .signed a
        divisionByZero := true, overflow := false }))) ∧
  (∀ (a b : Word) (s : State), b ≠ 0x0000#16 →
    (∃ r : DivisionResult, exec (.divU a b) s = .next (s.deliver (.division r)) ∧ r.divisionByZero = false) ∧
    (∃ r : DivisionResult, exec (.divS a b) s = .next (s.deliver (.division r)) ∧ r.divisionByZero = false))

/-- 43_divider.md §1, R88's invariant [derived]: after the restoring step for dividend bit i, that is after 16 − i steps, REM is
floor(N / 2^i) mod D and QR[15:i] is floor(N / 2^i) / D, with no quotient bit below i set yet. No shift loses a bit, and the
final remainder is less than D. -/
def Obligations.RestoringDivisionInvariant : Prop :=
  ∀ n d : Word, d ≠ 0x0000#16 →
    (∀ k, k ≤ 16 →
      uint (restoringLoop borrowTest n d k).rem = (uint n / 2 ^ (16 - k)) % uint d ∧
      uint (restoringLoop borrowTest n d k).qr = (uint n / 2 ^ (16 - k)) / uint d * 2 ^ (16 - k)) ∧
    (∀ k, k < 16 → uint (restoringLoop borrowTest n d k).rem ≤ 32767) ∧
    uint (restoring n d).rem < uint d

/-- 43_divider.md §1, R89 [derived], and 90_conflicts.md C8: the borrow test is exact for every divisor but 0. The rejected sign test
agrees with it for divisors up to 0x8000, and above them gives the wrong divisions that R89 names. -/
def Obligations.CompareByTheBorrow : Prop :=
  (∀ r d : Word, d ≠ 0x0000#16 →
    ((borrowTest r d).ge = true ↔ uint d ≤ uint r) ∧
    ((borrowTest r d).ge = true → uint (borrowTest r d).diff = uint r - uint d)) ∧
  (∀ r d : Word, d ≠ 0x0000#16 → uint d ≤ 0x8000 → uint r < 2 * uint d →
    signTestReading r d = borrowTest r d) ∧
  restoringLoop signTestReading 0x0000#16 0x8001#16 16 = { rem := 0x0002#16, qr := 0xFFFE#16 } ∧
  restoringLoop signTestReading 0x0001#16 0xFFFF#16 16 = { rem := 0x0000#16, qr := 0xFFFF#16 }

/-- 43_divider.md §2, DIV.U for a divisor that is not zero: encoding, closed form [derived], flags, corner cases, example. Everything but
the record stays as it was. -/
def Obligations.DivUnsigned : Prop :=
  ∀ (a b : Word) (s : State), b ≠ 0x0000#16 →
    decode (writtenWord 0x6#4 a b) = .divU a b ∧
    (∃ r : DivisionResult, exec (.divU a b) s = .next (s.deliver (.division r)) ∧
      uint r.quotient = uint a / uint b ∧ uint r.remainder = uint a % uint b ∧
      r.divisionByZero = false ∧ r.overflow = false) ∧
    (uint a < uint b → exec (.divU a b) s = .next (s.deliver (.division ⟨0x0000#16, a, false, false⟩))) ∧
    exec (.divU b b) s = .next (s.deliver (.division ⟨0x0001#16, 0x0000#16, false, false⟩)) ∧
    exec (.divU a 0x0001#16) s = .next (s.deliver (.division ⟨a, 0x0000#16, false, false⟩)) ∧
    exec (.divU 0xFFFE#16 0x8001#16) s = .next (s.deliver (.division ⟨0x0001#16, 0x7FFD#16, false, false⟩)) ∧
    exec (.divU 0x0000#16 0x8001#16) s = .next (s.deliver (.division ⟨0x0000#16, 0x0000#16, false, false⟩)) ∧
    exec (.divU 0x0001#16 0xFFFF#16) s = .next (s.deliver (.division ⟨0x0000#16, 0x0001#16, false, false⟩)) ∧
    exec (.divU 0x1234#16 0x0010#16) s = .next (s.deliver (.division ⟨0x0123#16, 0x0004#16, false, false⟩))

/-- 43_divider.md §2, DIV.S for a divisor that is not zero: encoding, closed form [derived], flags, corner cases, example. Everything but
the record stays as it was. -/
def Obligations.DivSigned : Prop :=
  ∀ (a b : Word) (s : State), b ≠ 0x0000#16 →
    decode (writtenWord 0x7#4 a b) = .divS a b ∧
    (∃ r : DivisionResult, exec (.divS a b) s = .next (s.deliver (.division r)) ∧
      r.quotient = BitVec.ofInt 16 ((sint a).tdiv (sint b)) ∧
      r.remainder = BitVec.ofInt 16 (sint a - (sint a).tdiv (sint b) * sint b) ∧
      r.divisionByZero = false ∧ (r.overflow = true ↔ a = 0x8000#16 ∧ b = 0xFFFF#16)) ∧
    exec (.divS 0x8000#16 0xFFFF#16) s = .next (s.deliver (.division ⟨0x8000#16, 0x0000#16, false, true⟩)) ∧
    exec (.divS 0x8000#16 0x0001#16) s = .next (s.deliver (.division ⟨0x8000#16, 0x0000#16, false, false⟩)) ∧
    exec (.divS 0xFFF9#16 0x0002#16) s = .next (s.deliver (.division ⟨0xFFFD#16, 0xFFFF#16, false, false⟩)) ∧
    exec (.divS 0x0007#16 0xFFFE#16) s = .next (s.deliver (.division ⟨0xFFFD#16, 0x0001#16, false, false⟩)) ∧
    exec (.divS 0xFFF9#16 0xFFFE#16) s = .next (s.deliver (.division ⟨0x0003#16, 0xFFFF#16, false, false⟩)) ∧
    exec (.divS 0x8000#16 0x7FFF#16) s = .next (s.deliver (.division ⟨0xFFFF#16, 0xFFFF#16, false, false⟩)) ∧
    exec (.divS 0x7FFF#16 0x8000#16) s = .next (s.deliver (.division ⟨0x0000#16, 0x7FFF#16, false, false⟩)) ∧
    exec (.divS 0x8000#16 0x8000#16) s = .next (s.deliver (.division ⟨0x0001#16, 0x0000#16, false, false⟩)) ∧
    exec (.divS 0x0000#16 0xFFFF#16) s = .next (s.deliver (.division ⟨0x0000#16, 0x0000#16, false, false⟩))

/-- 43_divider.md §2, R94 [derived]: the division laws of both modes, and the one exception modulo 2^16. -/
def Obligations.DivisionLaws : Prop :=
  ∀ (a b : Word) (s : State), b ≠ 0x0000#16 →
    (∃ r : DivisionResult, exec (.divU a b) s = .next (s.deliver (.division r)) ∧
      uint r.quotient * uint b + uint r.remainder = uint a ∧ uint r.remainder < uint b) ∧
    (∃ r : DivisionResult, exec (.divS a b) s = .next (s.deliver (.division r)) ∧
      (¬ (a = 0x8000#16 ∧ b = 0xFFFF#16) →
        sint r.quotient * sint b + sint r.remainder = sint a ∧
        (sint r.remainder).natAbs < (sint b).natAbs ∧
        (sint r.remainder = 0 ∨ (sint r.remainder < 0 ↔ sint a < 0))) ∧
      (a = 0x8000#16 ∧ b = 0xFFFF#16 →
        (sint r.quotient * sint b + sint r.remainder) % 65536 = sint a % 65536))

/-- 43_divider.md §1 and 90_conflicts.md C4: in signed mode the remainder is the magnitude that the source's §3 names, with the sign of
the dividend put back; the two differ at −7 ÷ 2. In unsigned mode they are the same. -/
def Obligations.RemainderHasTheDividendsSign : Prop :=
  (∀ (a b : Word) (s : State), b ≠ 0x0000#16 →
    (∃ r : DivisionResult, exec (.divU a b) s = .next (s.deliver (.division r)) ∧
      r.remainder = magnitudeRemainderReading .unsigned a b) ∧
    (∃ r : DivisionResult, exec (.divS a b) s = .next (s.deliver (.division r)) ∧
      uint (magnitudeRemainderReading .signed a b) = (sint r.remainder).natAbs ∧
      (sign a = false → r.remainder = magnitudeRemainderReading .signed a b) ∧
      (sign a = true → r.remainder = negate (magnitudeRemainderReading .signed a b)))) ∧
  magnitudeRemainderReading .signed 0xFFF9#16 0x0002#16 = 0x0001#16

/-- 70_reset_and_hazards.md R114: a host that tests divisionByZero before it reads the quotient or the remainder never sees a draw: what
it reads is the same from any two states, and it reads nothing exactly when the divisor is 0x0000. -/
def Obligations.GuardedReadsNeverSeeADraw : Prop :=
  ∀ (a b : Word) (s s' : State) (i : Instr), i = .divU a b ∨ i = .divS a b →
    ∃ t t' r r', exec i s = .next t ∧ exec i s' = .next t' ∧
      t.record = some (.division r) ∧ t'.record = some (.division r') ∧
      r.readQuotient = r'.readQuotient ∧ r.readRemainder = r'.readRemainder ∧
      (r.readQuotient = none ↔ b = 0x0000#16) ∧ (r.readRemainder = none ↔ b = 0x0000#16)

/-! ## Flags, records, and the whole machine -/

/-- 60_exceptions.md §1 and §2 (R98 is partly [derived]): which commands can report which condition. Each of nine commands can report
overflow, DIV.U never does; divisionByZero is reported by a division with B = 0x0000 and by nothing else; never both. -/
def Obligations.ReportedConditions : Prop :=
  (∀ (i : Instr) (s : State), i.WellFormed → ∃ t r, exec i s = .next t ∧ t.record = some r ∧
    (r.divisionByZero = true ↔ drawsFreeValues i = true) ∧
    ¬ (r.divisionByZero = true ∧ r.overflow = true) ∧
    (i.op = .div ∧ i.mode = .unsigned → r.overflow = false)) ∧
  (∀ op ∈ [Op.neg, .add, .sub, .mul, .div], ∀ m : Mode, ¬ (op = .div ∧ m = .unsigned) →
    ∃ a b : Word, ∀ s : State, ∃ t r, exec (Instr.ofFields op m a b) s = .next t ∧
      t.record = some r ∧ r.overflow = true)

/-- 20_memory.md §4 gives the widths of the records. That their fields stand in the packed record from the highest bit down is the
model's choice (log 10); no field is lost in it. -/
def Obligations.RecordBitsKeepEveryField : Prop :=
  (∀ r : AdditionResult, additionOfBits (additionBits r) = r) ∧
  (∀ r : MultiplicationResult, multiplicationOfBits (multiplicationBits r) = r) ∧
  (∀ r : DivisionResult, divisionOfBits (divisionBits r) = r) ∧
  (∀ r : Record, recordWidth r = match r with
    | .addition _ => 17
    | .multiplication _ => 49
    | .division _ => 34)

/-- 10_state.md §8 (R27, R30): after power-up nothing has been presented and no record exists; the working registers of a command start
at 0; and the two invariants below hold. -/
def Obligations.ResetHoldsNothing : Prop :=
  State.reset.commands = [] ∧ State.reset.record = none ∧
  State.reset.recordConsistent = true ∧ State.reset.commandsOnly = true ∧
  (∀ x y : Word, carryInto x y 0 = false) ∧ (∀ x y : DoubleWord, carryInto x y 0 = false) ∧
  (∀ ma mb : Word, accumulate ma mb 0 = 0x00000000#32) ∧
  (∀ n d : Word, restoringLoop borrowTest n d 0 = { rem := 0x0000#16, qr := 0x0000#16 })

/-- 10_state.md §3, 42_multiplier.md §2, 43_divider.md §1: from every state whose record is a record of the block, a step gives a state
whose record is one. That the state keeps the last record is the model's choice (log 3). -/
def Obligations.StepKeepsTheRecordConsistent : Prop :=
  ∀ s t : State, s.recordConsistent = true → step s = .next t → t.recordConsistent = true

/-- 70_reset_and_hazards.md §1 and §2: while the host keeps its duty to present no reserved OP, every step has a next state, and the duty
stays kept for what is still presented. The list of presented words (log 1), the next state where it is empty (log 2), and which commands
are well formed (log 14), are the model's. -/
def Obligations.KeptDutyMeansNoRefusal : Prop :=
  ∀ s : State, s.commandsOnly = true → ∃ t, step s = .next t ∧ t.commandsOnly = true

/-- 20_memory.md §6 and 70_reset_and_hazards.md §3: from any state, commands that are not refused run to their end one after another, and
the last one's record is the record it would have produced alone, whatever ran before it and in whatever order. That commands wait in a
list and run one after another is the model's (log 1, log 12). -/
def Obligations.RunsCompleteWithSoloRecords : Prop :=
  ∀ (before : List CommandWord) (w : CommandWord) (after : List CommandWord) (s : State),
    (∀ v ∈ before, (decode v).WellFormed) → (decode w).WellFormed →
    ∃ t r r', Sys2Proof.core.run (before.length + 1) { s with commands := before ++ w :: after } = .next t ∧
      t.commands = after ∧ t.record = some r ∧ aloneRecord w s.drawIndex = some r' ∧
      r.sameButDraws r' = true

/-- 30_encoding.md §4 and 60_exceptions.md §1: a run that reaches a reserved word is refused from there on, however long it goes on. That
the refused outcome is the spec's mark on the run (log 5), and the list of presented words (log 1), are the model's. -/
def Obligations.ReservedWordEndsTheRun : Prop :=
  ∀ (before : List CommandWord) (w : CommandWord) (after : List CommandWord) (s : State) (k : Nat),
    (∀ v ∈ before, (decode v).WellFormed) → ¬ (decode w).WellFormed →
    Sys2Proof.core.run (before.length + 1 + k) { s with commands := before ++ w :: after } =
      .refused (.reservedOp (opField w))

/-- 70_reset_and_hazards.md §2 and §4: the work of each command is what its datapath performs, it is what R117's table says, and it is
bounded as R112 says. The record that the counted computation gives is the record that exec gives; the counted multiplier is the
multiplier's own loop, and its adds are the steps at which that loop takes the add's sum, those whose bit of the multiplier is 1; the
counted divider is the divider's own loop, with a negate and an add in each compare. That the negate of a compare, and each negate
that a sign requires, counts as one ripple addition is the model's reading (log 13). -/
def Obligations.WorkIsBounded : Prop :=
  (∀ (i : Instr) (s : State), i.WellFormed → ∃ t c, exec i s = .next t ∧
    countedRecord i s.drawIndex = some c ∧ t.record = some c.value ∧ work i = some c.work) ∧
  (∀ i : Instr, (work i).isSome = true ↔ i.WellFormed) ∧
  (∀ (ma mb : Word) (k : Nat),
    countedAccumulate ma mb k = { value := accumulate ma mb k
                                  work := ⟨0, ((List.range k).filter fun i => mb.getLsbD i).length, k⟩ } ∧
    (mb.getLsbD k = true → accumulate ma mb (k + 1) = (accumulatorAdd ma (accumulate ma mb k) k).sum) ∧
    (mb.getLsbD k = false → accumulate ma mb (k + 1) = accumulate ma mb k)) ∧
  (∀ (n d : Word) (k : Nat),
    countedRestoringLoop n d k = { value := restoringLoop borrowTest n d k, work := ⟨2 * k, 0, k⟩ }) ∧
  (∀ a b : Word, work (.negU a b) = some ⟨1, 0, 0⟩ ∧ work (.negS a b) = some ⟨1, 0, 0⟩ ∧
    work (.addU a b) = some ⟨1, 0, 0⟩ ∧ work (.addS a b) = some ⟨1, 0, 0⟩ ∧
    work (.subU a b) = some ⟨2, 0, 0⟩ ∧ work (.subS a b) = some ⟨2, 0, 0⟩) ∧
  (∀ a b : Word,
    work (.mulU a b) = some ⟨0, popcount b, 16⟩ ∧
    work (.mulS a b) = some ⟨(sign a).toNat + (sign b).toNat,
      popcount (mag b .signed) + (sign a ^^ sign b).toNat, 16⟩) ∧
  (∀ a b : Word, b ≠ 0x0000#16 →
    work (.divU a b) = some ⟨32, 0, 16⟩ ∧
    work (.divS a b) = some ⟨32 + ((sign a).toNat + (sign b).toNat) + ((sign a ^^ sign b).toNat + (sign a).toNat), 0, 16⟩) ∧
  (∀ a : Word, work (.divU a 0x0000#16) = some ⟨0, 0, 0⟩ ∧ work (.divS a 0x0000#16) = some ⟨0, 0, 0⟩) ∧
  (∀ v : Word, popcount v = ((List.range 16).filter fun i => v.getLsbD i).length ∧ popcount v ≤ 16) ∧
  (∀ (i : Instr) (c : WorkCount), work i = some c →
    (i.op = .mul → c.adds16 ≤ 2 ∧ c.adds32 ≤ 16 + 1 ∧ c.iterations = 16) ∧
    (i.op = .div → c.adds16 ≤ 16 * 2 + 4 ∧ c.adds32 = 0 ∧ c.iterations ≤ 16))

/-! ## Assembly notation -/

/-- 30_encoding.md §5: what the disassembler prints, the assembler reads back, as printed or in lower case, with any blanks around it, and
with any comment after it, for every command in the form the assembler writes. Which characters are blanks is the model's choice (log 11). -/
def Obligations.AssemblerReadsTheDisassembler : Prop :=
  ∀ i : Instr, i.assemblerForm = true →
    ∃ text, disassemble i = some text ∧
      ∀ printed ∈ [text, text.map Char.toLower], ∀ before after comment : List Char,
        before.all isBlank = true → after.all isBlank = true →
        assembleLine (before ++ printed ++ after) = .ok (some i) ∧
        assembleLine (before ++ printed ++ after ++ ';' :: comment) = .ok (some i)

/-- 30_encoding.md §5: whatever the text, a line that assembles to a command gives a command that is not refused, with B = 0x0000 if it is a NEG. -/
def Obligations.AssembledCommandsAreCommands : Prop :=
  ∀ (line : List Char) (i : Instr), assembleLine line = .ok (some i) → i.assemblerForm = true

/-- 30_encoding.md R57: the three forms of literal, their values, and their ranges; a literal outside them is an error and is never
truncated. That a hexadecimal digit may be of either case, and that the sign may be the hyphen as well as the minus sign that R57 prints,
are the model's choices (log 11), and so are the names of the errors. -/
def Obligations.LiteralsAreNeverTruncated : Prop :=
  (∀ (m : Mode) (ds : List (Nat × Bool)), ds ≠ [] → (∀ d ∈ ds, d.1 < 16) →
    literal m ('0' :: 'x' :: ds.map fun d => if d.2 then (hexChar d.1).toLower else hexChar d.1) =
      if ds.length ≤ 4 then .ok (BitVec.ofNat 16 (ds.foldl (fun v d => v * 16 + d.1) 0))
      else .error .outOfRange) ∧
  (∀ (m : Mode) (ds : List Nat), ds ≠ [] → (∀ d ∈ ds, d < 10) →
    literal m (ds.map hexChar) =
      if ds.foldl (fun v d => v * 10 + d) 0 ≤ 65535 then
        .ok (BitVec.ofNat 16 (ds.foldl (fun v d => v * 10 + d) 0))
      else .error .outOfRange) ∧
  (∀ (minus : Char) (ds : List Nat), minus = '-' ∨ minus = '−' → ds ≠ [] → (∀ d ∈ ds, d < 10) →
    literal .signed (minus :: ds.map hexChar) =
      (if 1 ≤ ds.foldl (fun v d => v * 10 + d) 0 ∧ ds.foldl (fun v d => v * 10 + d) 0 ≤ 32768 then
        .ok (BitVec.ofInt 16 (-(ds.foldl (fun v d => v * 10 + d) 0 : Nat)))
      else .error .outOfRange) ∧
    literal .unsigned (minus :: ds.map hexChar) = .error .negativeInUnsigned)
end

