-- ==== Sys2Proof/Laws/Adder.lean ====
section
/-! SUPPORT. What the shared operations of the adder give: the ripple adder, the negator, the SUB datapath. -/

namespace Sys2Proof.Machine

@[simp] theorem getLsbD_bitsOf (f : Nat → Bool) (n i : Nat) :
    (bitsOf f n).getLsbD i = (decide (i < n) && f i) := by
  induction n with
  | zero => simp [bitsOf]
  | succ n ih =>
    rw [bitsOf, BitVec.getLsbD_cons, ih]
    by_cases h : i = n
    · simp [h]
    · have : (i < n) = (i < n + 1) := by rw [eq_iff_iff]; omega
      simp [h, this]

@[simp] theorem carryInto_zero {n : Nat} (x y : BitVec n) : carryInto x y 0 = false := rfl

/-- The carry chain is the library's carry with carry-in 0. -/
theorem carryInto_eq {n : Nat} (x y : BitVec n) (i : Nat) : carryInto x y i = BitVec.carry i x y false := by
  induction i with
  | zero => simp [carryInto]
  | succ i ih =>
    rw [carryInto, BitVec.carry_succ, ih]
    cases x.getLsbD i <;> cases y.getLsbD i <;> cases BitVec.carry i x y false <;> rfl

/-- The adder's sum is addition modulo 2^n. -/
theorem addN_sum {n : Nat} (x y : BitVec n) : (addN x y).sum = x + y := by
  apply BitVec.eq_of_getLsbD_eq
  intro i h
  rw [addN, getLsbD_bitsOf, BitVec.getLsbD_add h, carryInto_eq]
  simp only [h, decide_true, Bool.true_and, Bool.xor_assoc]

/-- The adder's carries, each as the carry of the low bits. -/
theorem addN_carry {n : Nat} (x y : BitVec n) (i : Nat) (h : i ≤ n) :
    (addN x y).c.getLsbD i = BitVec.carry i x y false := by
  rw [addN, getLsbD_bitsOf, carryInto_eq, decide_eq_true (Nat.lt_succ_of_le h), Bool.true_and]

/-- The negator is negation modulo 2^n. -/
theorem negate_eq {n : Nat} (v : BitVec n) : negate v = -v := by
  rw [negate, addN_sum, BitVec.neg_eq_not_add]

/-- The SUB datapath's difference is subtraction modulo 2^16. -/
theorem subtract_sum (a b : Word) : (subtract a b).sum = a - b := by
  rw [subtract, addN_sum, negate_eq, BitVec.sub_eq_add_neg]

/-- The SUB datapath's carry out says that nothing was borrowed, for a subtrahend that is not zero. -/
theorem subtract_carry (a b : Word) (h : b ≠ 0x0000#16) :
    (subtract a b).c.getLsbD 16 = decide (b.toNat ≤ a.toNat) := by
  have hb : b.toNat ≠ 0 := fun e => h (BitVec.eq_of_toNat_eq e)
  rw [subtract, addN_carry _ _ _ (Nat.le_refl _), negate_eq, BitVec.carry]
  have := a.isLt
  have := b.isLt
  simp only [BitVec.toNat_neg, Bool.toNat_false, decide_eq_decide]
  omega

end Sys2Proof.Machine
end

