-- ==== Sys2Proof/Laws/Decode.lean ====
section
/-! SUPPORT. Reading each field of a packed word, and the small tables of the encoding in both directions. -/

namespace Sys2Proof

theorem Op.ofBits_toBits (o : Op) : Op.ofBits o.toBits = o := by cases o <;> rfl

theorem Op.toBits_ofBits (o : BitVec 3) : (Op.ofBits o).toBits = o := by revert o; decide

theorem Mode.ofBit_toBit (m : Mode) : Mode.ofBit m.toBit = m := by cases m <;> rfl

theorem Mode.toBit_ofBit (m : Bool) : (Mode.ofBit m).toBit = m := by cases m <;> rfl

/-- Bit `i` of a packed word, by the field it lies in. -/
theorem getLsbD_packFields (o : BitVec 3) (m : Bool) (a b : Word) (i : Nat) :
    (packFields o m a b).getLsbD i =
      if i < 16 then b.getLsbD i
      else if i < 32 then a.getLsbD (i - 16)
      else if i = 32 then m
      else o.getLsbD (i - 33) := by
  rw [packFields, BitVec.getLsbD_append, BitVec.getLsbD_append, BitVec.getLsbD_append, BitVec.getLsbD_ofBool]
  by_cases h1 : i < 16
  · simp only [h1, if_true]
  · by_cases h2 : i < 32
    · have : i - 16 < 16 := by omega
      simp only [h1, h2, this, if_true, if_false]
    · have h3 : ¬ i - 16 < 16 := by omega
      by_cases h4 : i = 32
      · subst h4
        simp
      · have h5 : ¬ i - 16 - 16 < 1 := by omega
        have h6 : i - 16 - 16 - 1 = i - 33 := by omega
        simp only [h1, h2, h3, h4, h5, h6, if_false]

theorem opField_packFields (o : BitVec 3) (m : Bool) (a b : Word) : opField (packFields o m a b) = o := by
  apply BitVec.eq_of_getLsbD_eq
  intro i hi
  have h1 : ¬ 33 + i < 16 := by omega
  have h2 : ¬ 33 + i < 32 := by omega
  have h3 : ¬ 33 + i = 32 := by omega
  have h4 : 33 + i - 33 = i := by omega
  simp only [opField, BitVec.getLsbD_extractLsb', getLsbD_packFields, hi, decide_true, Bool.true_and, h1, h2, h3,
    h4, if_false]

theorem modeField_packFields (o : BitVec 3) (m : Bool) (a b : Word) : modeField (packFields o m a b) = m := by
  rw [modeField, getLsbD_packFields]
  rfl

theorem aField_packFields (o : BitVec 3) (m : Bool) (a b : Word) : aField (packFields o m a b) = a := by
  apply BitVec.eq_of_getLsbD_eq
  intro i hi
  have h1 : ¬ 16 + i < 16 := by omega
  have h2 : 16 + i < 32 := by omega
  have h3 : 16 + i - 16 = i := by omega
  simp only [aField, BitVec.getLsbD_extractLsb', getLsbD_packFields, hi, decide_true, Bool.true_and, h1, h2, h3,
    if_true, if_false]

theorem bField_packFields (o : BitVec 3) (m : Bool) (a b : Word) : bField (packFields o m a b) = b := by
  apply BitVec.eq_of_getLsbD_eq
  intro i hi
  simp only [bField, BitVec.getLsbD_extractLsb', getLsbD_packFields, hi, decide_true, Bool.true_and, Nat.zero_add,
    if_true]

theorem decode_packFields (o : BitVec 3) (m : Bool) (a b : Word) :
    decode (packFields o m a b) = Instr.ofFields (Op.ofBits o) (Mode.ofBit m) a b := by
  rw [decode, opField_packFields, modeField_packFields, aField_packFields, bField_packFields]

/-- A mask that keeps bits of OP and M alone keeps nothing of A and B. -/
theorem packFields_and_mask (o o' : BitVec 3) (m m' : Bool) (a b : Word) :
    packFields o m a b &&& packFields o' m' 0x0000#16 0x0000#16 =
      packFields (o &&& o') (m && m') 0x0000#16 0x0000#16 := by
  apply BitVec.eq_of_getLsbD_eq
  intro i hi
  rw [BitVec.getLsbD_and, getLsbD_packFields, getLsbD_packFields, getLsbD_packFields]
  split
  · simp
  · split
    · simp
    · split
      · rfl
      · rw [BitVec.getLsbD_and]

/-- A word written as a top digit and two operands is a packed word. -/
theorem writtenWord_eq_packFields (t : BitVec 4) (a b : Word) :
    writtenWord t a b = packFields (t.extractLsb' 1 3) (t.getLsbD 0) a b := by
  apply BitVec.eq_of_getLsbD_eq
  intro i hi
  rw [getLsbD_packFields, writtenWord, BitVec.getLsbD_append, BitVec.getLsbD_append]
  by_cases h1 : i < 16
  · simp only [h1, if_true]
  · by_cases h2 : i < 32
    · have : i - 16 < 16 := by omega
      simp only [h1, h2, this, if_true, if_false]
    · have h3 : ¬ i - 16 < 16 := by omega
      by_cases h4 : i = 32
      · subst h4
        simp
      · have h5 : i - 33 < 3 := by omega
        have h6 : 1 + (i - 33) = i - 16 - 16 := by omega
        simp only [h1, h2, h3, h4, h6, if_false, BitVec.getLsbD_extractLsb', h5, decide_true, Bool.true_and]

end Sys2Proof
end

