-- ==== Sys2Proof/Laws/Operands.lean ====
section
/-! SUPPORT. The two interpretations of a vector as the library's, and one lemma for each small operation of the multiplier and the divider. -/

namespace Sys2Proof.Machine

theorem weightedBits_eq {n : Nat} (v : BitVec n) (k : Nat) : weightedBits v k = v.toNat % 2 ^ k := by
  induction k with
  | zero => simp [weightedBits, Nat.mod_one]
  | succ k ih =>
    rw [weightedBits, ih, BitVec.getLsbD, Nat.toNat_testBit, Nat.mod_pow_succ, Nat.mul_comm]

/-- `uint` is the library's unsigned value. -/
theorem uint_eq_toNat {n : Nat} (v : BitVec n) : uint v = v.toNat := by
  rw [uint, weightedBits_eq, Nat.mod_eq_of_lt v.isLt]

/-- `sint` is the library's two's-complement value. -/
theorem sint_eq_toInt {n : Nat} (v : BitVec n) : sint v = v.toInt := by
  rw [sint, uint_eq_toNat, BitVec.toInt_eq_msb_cond, BitVec.msb_eq_getLsbD_last]
  cases v.getLsbD (n - 1) <;> simp

@[simp] theorem recordedSign_unsigned (w : Word) : recordedSign w .unsigned = false := by
  cases h : sign w <;> simp [recordedSign]

@[simp] theorem recordedSign_signed (w : Word) : recordedSign w .signed = sign w := by
  simp [recordedSign]

@[simp] theorem applySign_false {n : Nat} (v : BitVec n) : applySign false v = v := rfl

@[simp] theorem applySign_true {n : Nat} (v : BitVec n) : applySign true v = negate v := rfl

theorem accumulate_zero (ma mb : Word) : accumulate ma mb 0 = 0#32 := rfl

theorem accumulate_succ (ma mb : Word) (k : Nat) :
    accumulate ma mb (k + 1) = accumulateStep ma mb (accumulate ma mb k) k := rfl

/-- One step of the multiplier: add the shifted multiplicand where the multiplier's bit is 1. -/
theorem accumulateStep_eq (ma mb : Word) (acc : DoubleWord) (i : Nat) :
    accumulateStep ma mb acc i = if mb.getLsbD i then acc + ma.setWidth 32 <<< i else acc := by
  rw [accumulateStep, accumulatorAdd, addN_sum, shiftedMultiplicand]

theorem restoringLoop_zero (test : Word → Word → Comparison) (n d : Word) :
    restoringLoop test n d 0 = { rem := 0x0000#16, qr := 0x0000#16 } := rfl

theorem restoringLoop_succ (test : Word → Word → Comparison) (n d : Word) (k : Nat) :
    restoringLoop test n d (k + 1) = restoringStep test n d (restoringLoop test n d k) (15 - k) := rfl

/-- Bringing down a dividend bit doubles the running remainder and adds the bit, when the remainder's top bit is 0. -/
theorem bringDown_toNat (rem n : Word) (i : Nat) (h : rem.toNat < 32768) :
    (bringDown rem n i).toNat = 2 * rem.toNat + (n.getLsbD i).toNat := by
  have hbit : (BitVec.ofBool (n.getLsbD i)).toNat = (n.getLsbD i).toNat := by cases n.getLsbD i <;> rfl
  have hlt : (n.getLsbD i).toNat < 2 := by cases n.getLsbD i <;> decide
  rw [bringDown, BitVec.toNat_or, BitVec.toNat_shiftLeft, BitVec.toNat_setWidth, hbit,
    Nat.mod_eq_of_lt (a := (n.getLsbD i).toNat) (by omega), Nat.shiftLeft_eq, Nat.mod_eq_of_lt (by omega)]
  rw [Nat.mul_comm, ← Nat.two_pow_add_eq_or_of_lt (i := 1) (by simpa using hlt)]

end Sys2Proof.Machine
end

