-- ==== Sys2Proof/Laws/PerInstr.lean ====
section
/-! SUPPORT. The family TableRow: each command's word is accepted by a row of the opcode table that names the command. -/

namespace Sys2Proof.Laws.TableRow

/-- Some row of spec/opcode_table.json names the command, and its match and mask accept the command's word. -/
def Statement (i : Instr) : Prop := ∃ row ∈ opcodeTable, row.names i = true ∧ row.accepts (encode i) = true

theorem and_ones3 (o : BitVec 3) : o &&& 0b111#3 = o := BitVec.and_allOnes

/-- A row that compares OP and M accepts a word packed with them. -/
theorem accepts_op_mode (o : Op) (m : Mode) (a b : Word) (row : OpcodeRow)
    (hm : row.mask = packFields 0b111#3 true 0x0000#16 0x0000#16)
    (hv : row.value = packFields o.toBits m.toBit 0x0000#16 0x0000#16) :
    row.accepts (packFields o.toBits m.toBit a b) = true := by
  rw [OpcodeRow.accepts, hm, hv, packFields_and_mask, Bool.and_true, and_ones3, beq_self_eq_true]

/-- A row that compares OP alone accepts a word packed with it. -/
theorem accepts_op (o : Op) (m : Mode) (a b : Word) (row : OpcodeRow)
    (hm : row.mask = packFields 0b111#3 false 0x0000#16 0x0000#16)
    (hv : row.value = packFields o.toBits false 0x0000#16 0x0000#16) :
    row.accepts (packFields o.toBits m.toBit a b) = true := by
  rw [OpcodeRow.accepts, hm, hv, packFields_and_mask, Bool.and_false, and_ones3, beq_self_eq_true]

theorem addU (a b : Word) : Statement (.addU a b) :=
  ⟨⟨.add, some .unsigned, 0x000000000#36, 0xF00000000#36⟩, by decide, rfl, accepts_op_mode .add .unsigned a b _ (by decide) (by decide)⟩

theorem addS (a b : Word) : Statement (.addS a b) :=
  ⟨⟨.add, some .signed, 0x100000000#36, 0xF00000000#36⟩, by decide, rfl, accepts_op_mode .add .signed a b _ (by decide) (by decide)⟩

theorem subU (a b : Word) : Statement (.subU a b) :=
  ⟨⟨.sub, some .unsigned, 0x200000000#36, 0xF00000000#36⟩, by decide, rfl, accepts_op_mode .sub .unsigned a b _ (by decide) (by decide)⟩

theorem subS (a b : Word) : Statement (.subS a b) :=
  ⟨⟨.sub, some .signed, 0x300000000#36, 0xF00000000#36⟩, by decide, rfl, accepts_op_mode .sub .signed a b _ (by decide) (by decide)⟩

theorem mulU (a b : Word) : Statement (.mulU a b) :=
  ⟨⟨.mul, some .unsigned, 0x400000000#36, 0xF00000000#36⟩, by decide, rfl, accepts_op_mode .mul .unsigned a b _ (by decide) (by decide)⟩

theorem mulS (a b : Word) : Statement (.mulS a b) :=
  ⟨⟨.mul, some .signed, 0x500000000#36, 0xF00000000#36⟩, by decide, rfl, accepts_op_mode .mul .signed a b _ (by decide) (by decide)⟩

theorem divU (a b : Word) : Statement (.divU a b) :=
  ⟨⟨.div, some .unsigned, 0x600000000#36, 0xF00000000#36⟩, by decide, rfl, accepts_op_mode .div .unsigned a b _ (by decide) (by decide)⟩

theorem divS (a b : Word) : Statement (.divS a b) :=
  ⟨⟨.div, some .signed, 0x700000000#36, 0xF00000000#36⟩, by decide, rfl, accepts_op_mode .div .signed a b _ (by decide) (by decide)⟩

theorem negU (a b : Word) : Statement (.negU a b) :=
  ⟨⟨.neg, some .unsigned, 0x800000000#36, 0xF00000000#36⟩, by decide, rfl, accepts_op_mode .neg .unsigned a b _ (by decide) (by decide)⟩

theorem negS (a b : Word) : Statement (.negS a b) :=
  ⟨⟨.neg, some .signed, 0x900000000#36, 0xF00000000#36⟩, by decide, rfl, accepts_op_mode .neg .signed a b _ (by decide) (by decide)⟩

theorem reservedOp101 (m : Mode) (a b : Word) : Statement (.reservedOp101 m a b) :=
  ⟨⟨.reserved101, none, 0xA00000000#36, 0xE00000000#36⟩, by decide, rfl, accepts_op .reserved101 m a b _ (by decide) (by decide)⟩

theorem reservedOp110 (m : Mode) (a b : Word) : Statement (.reservedOp110 m a b) :=
  ⟨⟨.reserved110, none, 0xC00000000#36, 0xE00000000#36⟩, by decide, rfl, accepts_op .reserved110 m a b _ (by decide) (by decide)⟩

theorem reservedOp111 (m : Mode) (a b : Word) : Statement (.reservedOp111 m a b) :=
  ⟨⟨.reserved111, none, 0xE00000000#36, 0xE00000000#36⟩, by decide, rfl, accepts_op .reserved111 m a b _ (by decide) (by decide)⟩

end Sys2Proof.Laws.TableRow
end

