-- ==== Sys2Proof/Laws/State.lean ====
section
/-! SUPPORT. Each field of State under each update, and what a step and a meaning can do, said once. -/

namespace Sys2Proof.Machine

@[simp] theorem present_commands (s : State) (w : CommandWord) : (s.present w).commands = w :: s.commands := rfl
@[simp] theorem present_record (s : State) (w : CommandWord) : (s.present w).record = s.record := rfl
@[simp] theorem present_drawIndex (s : State) (w : CommandWord) : (s.present w).drawIndex = s.drawIndex := rfl

@[simp] theorem deliver_commands (s : State) (r : Record) : (s.deliver r).commands = s.commands := rfl
@[simp] theorem deliver_record (s : State) (r : Record) : (s.deliver r).record = some r := rfl
@[simp] theorem deliver_drawIndex (s : State) (r : Record) : (s.deliver r).drawIndex = s.drawIndex := rfl

@[simp] theorem nextDraw_commands (s : State) : s.nextDraw.commands = s.commands := rfl
@[simp] theorem nextDraw_record (s : State) : s.nextDraw.record = s.record := rfl
@[simp] theorem nextDraw_drawIndex (s : State) : s.nextDraw.drawIndex = s.drawIndex + 1 := rfl

@[simp] theorem reset_commands : State.reset.commands = [] := rfl
@[simp] theorem reset_record : State.reset.record = none := rfl

/-- A command that completes answers the state with its record delivered, and nothing else. -/
theorem complete_eq_next {r : Record} {s t : State} (h : complete r s = .next t) : t = s.deliver r := by
  unfold complete at h
  injection h with h
  exact h.symm

/-- DIV answers one of two next states: a division by zero with its draws, or the record of a division. -/
theorem divide_cases (m : Mode) (a b : Word) (s : State) :
    (b = 0x0000#16 ∧ divide m a b s =
      .next (s.nextDraw.deliver (.division (divisionByZeroRecord
        (Config.dzQuotient s.drawIndex m a) (Config.dzRemainder s.drawIndex m a))))) ∨
    (b ≠ 0x0000#16 ∧ divide m a b s = .next (s.deliver (.division (divideRecord m a b)))) := by
  by_cases h : b = 0x0000#16
  · exact .inl ⟨h, by simp [divide, h, complete]⟩
  · exact .inr ⟨h, by simp [divide, h, complete]⟩

/-- Everything a meaning that answers a next state can have done: it delivered one record, and a division by zero moved the
counter of draws on by one. -/
theorem exec_cases {i : Instr} {s t : State} (h : exec i s = .next t) :
    ∃ r, t = s.deliver r ∨ t = s.nextDraw.deliver r := by
  cases i with
  | divU a b | divS a b =>
    simp only [exec, execDivU, execDivS] at h
    rcases divide_cases _ a b s with ⟨-, hd⟩ | ⟨-, hd⟩ <;> rw [hd] at h <;> injection h with h
    · exact ⟨_, .inr h.symm⟩
    · exact ⟨_, .inl h.symm⟩
  | reservedOp101 | reservedOp110 | reservedOp111 => cases h
  | _ => exact ⟨_, .inl (complete_eq_next h)⟩

/-- A meaning leaves the presented commands alone. -/
theorem exec_commands {i : Instr} {s t : State} (h : exec i s = .next t) : t.commands = s.commands := by
  obtain ⟨r, rfl | rfl⟩ := exec_cases h <;> rfl

/-- Everything a step that answers a next state can have done: nothing while no command is presented, else the meaning of the
next command on the state with that command taken. -/
theorem step_cases {s t : State} (h : step s = .next t) :
    (s.commands = [] ∧ t = s) ∨
    ∃ w rest, s.commands = w :: rest ∧ exec (decode w) { s with commands := rest } = .next t := by
  cases hc : s.commands with
  | nil =>
    simp only [step, takeCommand, hc, idle] at h
    injection h with h
    exact .inl ⟨rfl, h.symm⟩
  | cons w rest =>
    simp only [step, takeCommand, hc] at h
    exact .inr ⟨w, rest, rfl, h⟩

/-- A step with the word `w` presented next. -/
theorem step_of_commands {s : State} {w : CommandWord} {rest : List CommandWord} (h : s.commands = w :: rest) :
    step s = exec (decode w) { s with commands := rest } := by
  simp only [step, takeCommand, h]

end Sys2Proof.Machine
end

