-- ==== Sys2Proof/Laws/Run.lean ====
section
/-! SUPPORT. Runs of the machine, one step at a time. -/

namespace Sys2Proof.Machine

/-- A run of any core whose first step has a next state goes on from there. -/
theorem core_run_of_next {M : Host.Core} {k : Nat} {s t : M.State} (h : M.step s = .next t) :
    M.run (k + 1) s = M.run k t := by
  simp only [Host.Core.run, h]

/-- A run of any core whose first step is refused is refused. -/
theorem core_run_of_refused {M : Host.Core} {k : Nat} {s : M.State} {r : M.Refusal} (h : M.step s = .refused r) :
    M.run (k + 1) s = .refused r := by
  simp only [Host.Core.run, h]

theorem run_zero (s : State) : Sys2Proof.core.run 0 s = .next s := rfl

/-- A run whose first step has a next state goes on from there. -/
theorem run_succ_of_next {k : Nat} {s t : State} (h : step s = .next t) :
    Sys2Proof.core.run (k + 1) s = Sys2Proof.core.run k t :=
  core_run_of_next (M := Sys2Proof.core) h

/-- A run whose first step is refused is refused. -/
theorem run_succ_of_refused {k : Nat} {s : State} {r : Refusal} (h : step s = .refused r) :
    Sys2Proof.core.run (k + 1) s = .refused r :=
  core_run_of_refused (M := Sys2Proof.core) h

/-- A step with a word just presented is the meaning of that word on the state as it was. -/
theorem step_present (s : State) (w : CommandWord) : step (s.present w) = exec (decode w) s := rfl

/-- DIV draws exactly when its divisor is 0x0000. -/
theorem drawsFreeValues_iff (i : Instr) : drawsFreeValues i = true ↔ i.op = .div ∧ i.b = 0x0000#16 := by
  rw [drawsFreeValues, Bool.and_eq_true, beq_iff_eq, beq_iff_eq]

theorem sameButDraws_refl (r : Record) : r.sameButDraws r = true := by
  cases r <;> simp [Record.sameButDraws]

end Sys2Proof.Machine
end

