-- ==== Sys2Proof/Laws/WorkCount.lean ====
section
/-! SUPPORT. The small lemmas of counted computations: the value and the work of each shared operation. -/

namespace Sys2Proof.Machine

@[simp] theorem WorkCount.plus_zero (x : WorkCount) : x.plus ⟨0, 0, 0⟩ = x := rfl

@[simp] theorem WorkCount.zero_plus (x : WorkCount) : WorkCount.plus ⟨0, 0, 0⟩ x = x := by
  simp [WorkCount.plus]

@[simp] theorem free_value {α : Type} (x : α) : (Counted.free x).value = x := by rw [Counted.free]
@[simp] theorem free_work {α : Type} (x : α) : (Counted.free x).work = ⟨0, 0, 0⟩ := by rw [Counted.free]

@[simp] theorem andThen_value {α β : Type} (x : Counted α) (f : α → Counted β) :
    (x.andThen f).value = (f x.value).value := by rw [Counted.andThen]
@[simp] theorem andThen_work {α β : Type} (x : Counted α) (f : α → Counted β) :
    (x.andThen f).work = x.work.plus (f x.value).work := by rw [Counted.andThen]

@[simp] theorem iteration_value {α : Type} (x : Counted α) : x.iteration.value = x.value := by rw [Counted.iteration]
@[simp] theorem iteration_work {α : Type} (x : Counted α) : x.iteration.work = x.work.plus ⟨0, 0, 1⟩ := by rw [Counted.iteration]

@[simp] theorem countedAdd16_value (x y : Word) : (countedAdd16 x y).value = addN x y := rfl
@[simp] theorem countedAdd16_work (x y : Word) : (countedAdd16 x y).work = ⟨1, 0, 0⟩ := rfl

@[simp] theorem countedAdd32_value (x y : DoubleWord) : (countedAdd32 x y).value = addN x y := rfl
@[simp] theorem countedAdd32_work (x y : DoubleWord) : (countedAdd32 x y).work = ⟨0, 1, 0⟩ := rfl

@[simp] theorem countedNegate16_value (v : Word) : (countedNegate16 v).value = negate v := by
  rw [countedNegate16, negate, andThen_value, free_value, countedAdd16]
@[simp] theorem countedNegate16_work (v : Word) : (countedNegate16 v).work = ⟨1, 0, 0⟩ := rfl

@[simp] theorem countedNegate32_value (v : DoubleWord) : (countedNegate32 v).value = negate v := by
  rw [countedNegate32, negate, andThen_value, free_value, countedAdd32]
@[simp] theorem countedNegate32_work (v : DoubleWord) : (countedNegate32 v).work = ⟨0, 1, 0⟩ := rfl

@[simp] theorem countedMag_value (w : Word) (m : Mode) : (countedMag w m).value = mag w m := by
  rw [countedMag, mag]; split <;> rfl

@[simp] theorem countedMag_work (w : Word) (m : Mode) : (countedMag w m).work = ⟨(recordedSign w m).toNat, 0, 0⟩ := by
  rw [countedMag]; cases recordedSign w m <;> rfl

@[simp] theorem countedSign16_value (s : Bool) (v : Word) : (countedSign16 s v).value = applySign s v := by
  cases s <;> rfl

@[simp] theorem countedSign16_work (s : Bool) (v : Word) : (countedSign16 s v).work = ⟨s.toNat, 0, 0⟩ := by
  cases s <;> rfl

@[simp] theorem countedSign32_value (s : Bool) (v : DoubleWord) : (countedSign32 s v).value = applySign s v := by
  cases s <;> rfl

@[simp] theorem countedSign32_work (s : Bool) (v : DoubleWord) : (countedSign32 s v).work = ⟨0, s.toNat, 0⟩ := by
  cases s <;> rfl

@[simp] theorem countedSubtract_value (a b : Word) : (countedSubtract a b).value = subtract a b := rfl
@[simp] theorem countedSubtract_work (a b : Word) : (countedSubtract a b).work = ⟨2, 0, 0⟩ := rfl

/-- A counted step of the multiplier is the multiplier's step, and its work is an add where the multiplier's bit is 1. -/
@[simp] theorem countedAccumulateStep_value (ma mb : Word) (acc : DoubleWord) (i : Nat) :
    (countedAccumulateStep ma mb acc i).value = accumulateStep ma mb acc i := by
  rw [countedAccumulateStep, accumulateStep]; split <;> rfl

@[simp] theorem countedAccumulateStep_work (ma mb : Word) (acc : DoubleWord) (i : Nat) :
    (countedAccumulateStep ma mb acc i).work = ⟨0, (mb.getLsbD i).toNat, 0⟩ := by
  rw [countedAccumulateStep]; cases mb.getLsbD i <;> rfl

/-- A counted step of the divider is the divider's step with the borrow test, and its work is the compare's negate and add. -/
@[simp] theorem countedRestoringStep_value (n d : Word) (g : DividerRegs) (i : Nat) :
    (countedRestoringStep n d g i).value = restoringStep borrowTest n d g i := rfl

@[simp] theorem countedRestoringStep_work (n d : Word) (g : DividerRegs) (i : Nat) :
    (countedRestoringStep n d g i).work = ⟨2, 0, 0⟩ := rfl

end Sys2Proof.Machine
end

