-- ==== Sys2Proof/Tests/Slice0.lean ====
section
/-! SUPPORT. The model's own tests: ill-formed commands, words written out from the spec, one step on small states, and a
concrete input for the hypotheses of each statement. Expected values are those of 95_test_vectors.md and of the command rules. -/

namespace Sys2Proof.Tests

open Sys2Proof Sys2Proof.Machine

/-! ## Well-formedness: ill-formed terms are refused -/

theorem test_wellFormed_refuses_op101 : ¬ (Instr.reservedOp101 .unsigned 0x0000#16 0x0000#16).WellFormed := by decide

theorem test_wellFormed_refuses_op110 : ¬ (Instr.reservedOp110 .signed 0xFFFF#16 0xFFFF#16).WellFormed := by decide

theorem test_wellFormed_refuses_op111 : ¬ (Instr.reservedOp111 .unsigned 0x0001#16 0x0001#16).WellFormed := by decide

/-- 30_encoding.md R51: a nonzero B does not make a NEG ill-formed. -/
theorem test_wellFormed_accepts_neg_with_b : (Instr.negU 0x0001#16 0xFFFF#16).WellFormed := by decide

theorem test_assemblerForm_refuses_negU_with_b : (Instr.negU 0x0001#16 0xFFFF#16).assemblerForm = false := by decide

theorem test_assemblerForm_refuses_negS_with_b : (Instr.negS 0x0001#16 0x0001#16).assemblerForm = false := by decide

theorem test_assemblerForm_refuses_reserved :
    (Instr.reservedOp111 .unsigned 0x0001#16 0x0001#16).assemblerForm = false := by decide

/-! ## Decoding: one word for each row of the opcode table, its bits written out as in 30_encoding.md R46 (OP, M, A, B) -/

theorem test_decode_addU : decode 0b000_0_1111111111111111_0000000000000001#36 = .addU 0xFFFF#16 0x0001#16 := by decide

theorem test_decode_addS : decode 0b000_1_0111111111111111_0000000000000001#36 = .addS 0x7FFF#16 0x0001#16 := by decide

theorem test_decode_subU : decode 0b001_0_0000000000000011_0000000000000101#36 = .subU 0x0003#16 0x0005#16 := by decide

theorem test_decode_subS : decode 0b001_1_1000000000000000_0000000000000001#36 = .subS 0x8000#16 0x0001#16 := by decide

theorem test_decode_mulU : decode 0b010_0_0001001000110100_0000000000010000#36 = .mulU 0x1234#16 0x0010#16 := by decide

theorem test_decode_mulS : decode 0b010_1_1111111111111101_0000000000000010#36 = .mulS 0xFFFD#16 0x0002#16 := by decide

theorem test_decode_divU : decode 0b011_0_0001001000110100_0000000000010000#36 = .divU 0x1234#16 0x0010#16 := by decide

theorem test_decode_divS : decode 0b011_1_1000000000000000_1111111111111111#36 = .divS 0x8000#16 0xFFFF#16 := by decide

theorem test_decode_negU : decode 0b100_0_0000000000000001_1111111111111111#36 = .negU 0x0001#16 0xFFFF#16 := by decide

theorem test_decode_negS : decode 0b100_1_1111111111010110_0000000000000000#36 = .negS 0xFFD6#16 0x0000#16 := by decide

theorem test_decode_op101 :
    decode 0b101_1_0001001000110100_0101011001111000#36 = .reservedOp101 .signed 0x1234#16 0x5678#16 := by decide

theorem test_decode_op110 :
    decode 0b110_0_0000000000000000_0000000000000000#36 = .reservedOp110 .unsigned 0x0000#16 0x0000#16 := by decide

theorem test_decode_op111 :
    decode 0b111_0_0000000000000001_0000000000000001#36 = .reservedOp111 .unsigned 0x0001#16 0x0001#16 := by decide

/-- The encodings of 95_test_vectors.md §2, at the hexadecimal digits they are written with. -/
theorem test_encode_words :
    encode (.addU 0x1234#16 0x4321#16) = 0x012344321#36 ∧ encode (.subS 0x7FFF#16 0x8000#16) = 0x37FFF8000#36 ∧
    encode (.mulS 0x0080#16 0xFF00#16) = 0x50080FF00#36 ∧ encode (.divU 0xFFFE#16 0x8001#16) = 0x6FFFE8001#36 ∧
    encode (.negS 0x002A#16 0x0000#16) = 0x9002A0000#36 ∧
    encode (.reservedOp110 .signed 0xFFFF#16 0xFFFF#16) = 0xDFFFFFFFF#36 := by decide

theorem test_tableWord_reads_a_command : decodeTableWord 40 0x80001FFFF = some (.negU 0x0001#16 0xFFFF#16) := by decide

/-- 20_memory.md R33: a command is a number below 2^36. -/
theorem test_tableWord_refuses_a_wider_number :
    decodeTableWord 40 0x1000000000 = none ∧ (decodeTableWord 36 0xFFFFFFFFF).isSome = true := by decide

theorem test_tableWord_too_wide_is_not_placed : State.reset.withFetchWord 40 0x1000000000 = State.reset := by decide

/-! ## One step from reset on a word of 95_test_vectors.md -/

/-- The record that the first step after reset gives for the word `w`, if it gives one. -/
def recordOf (w : CommandWord) : Option Record := aloneRecord w 0

theorem test_addU_wraps : recordOf 0x0FFFF0001#36 = some (.addition ⟨0x0000#16, true⟩) := by decide +kernel

theorem test_addU_carries_into_the_sign : recordOf 0x07FFF0001#36 = some (.addition ⟨0x8000#16, false⟩) := by decide +kernel

theorem test_addS_overflows : recordOf 0x17FFF0001#36 = some (.addition ⟨0x8000#16, true⟩) := by decide +kernel

theorem test_addS_underflows : recordOf 0x18000FFFF#36 = some (.addition ⟨0x7FFF#16, true⟩) := by decide +kernel

theorem test_subU_borrows : recordOf 0x200030005#36 = some (.addition ⟨0xFFFE#16, true⟩) := by decide +kernel

theorem test_subU_by_zero : recordOf 0x212340000#36 = some (.addition ⟨0x1234#16, false⟩) := by decide +kernel

theorem test_subS_underflows : recordOf 0x380000001#36 = some (.addition ⟨0x7FFF#16, true⟩) := by decide +kernel

theorem test_subS_of_the_most_negative : recordOf 0x3FFFF8000#36 = some (.addition ⟨0x7FFF#16, false⟩) := by decide +kernel

theorem test_mulU_overflows :
    recordOf 0x4FFFFFFFF#36 = some (.multiplication ⟨0x0001#16, true, 0xFFFE0001#32⟩) := by decide +kernel

theorem test_mulU_largest_that_fits :
    recordOf 0x400FF0101#36 = some (.multiplication ⟨0xFFFF#16, false, 0x0000FFFF#32⟩) := by decide +kernel

theorem test_mulS_overflows :
    recordOf 0x59D800009#36 = some (.multiplication ⟨0x8980#16, true, 0xFFFC8980#32⟩) := by decide +kernel

theorem test_mulS_most_negative_fits :
    recordOf 0x50080FF00#36 = some (.multiplication ⟨0x8000#16, false, 0xFFFF8000#32⟩) := by decide +kernel

theorem test_divU_large_divisor :
    recordOf 0x6FFFE8001#36 = some (.division ⟨0x0001#16, 0x7FFD#16, false, false⟩) := by decide +kernel

/-- The flags alone: the quotient and the remainder are draws (43_divider.md R86). -/
theorem test_divU_by_zero :
    (recordOf 0x612340000#36).map (fun r => (r.divisionByZero, r.overflow)) = some (true, false) := by decide +kernel

theorem test_divS_truncates_toward_zero :
    recordOf 0x7FFF90002#36 = some (.division ⟨0xFFFD#16, 0xFFFF#16, false, false⟩) := by decide +kernel

theorem test_divS_overflows :
    recordOf 0x78000FFFF#36 = some (.division ⟨0x8000#16, 0x0000#16, false, true⟩) := by decide +kernel

theorem test_negU_ignores_b : recordOf 0x80001FFFF#36 = some (.addition ⟨0xFFFF#16, true⟩) := by decide +kernel

theorem test_negU_of_zero : recordOf 0x800000000#36 = some (.addition ⟨0x0000#16, false⟩) := by decide +kernel

theorem test_negS_overflows : recordOf 0x980000000#36 = some (.addition ⟨0x8000#16, true⟩) := by decide +kernel

theorem test_negS_of_minus_one : recordOf 0x9FFFF0000#36 = some (.addition ⟨0x0001#16, false⟩) := by decide +kernel

theorem test_reserved_words_have_no_record :
    recordOf 0xB12345678#36 = none ∧ recordOf 0xC00000000#36 = none ∧ recordOf 0xFFFFFFFFF#36 = none := by decide +kernel

/-- 95_test_vectors.md §3.6, P6: the run that presents a reserved word second is refused. -/
theorem test_run_is_refused :
    Sys2Proof.core.run 3 { State.reset with commands := [0x000010002#36, 0xA00000000#36, 0x000030004#36] } =
      .refused (.reservedOp 0b101#3) :=
  (run_succ_of_next rfl).trans (run_succ_of_refused rfl)

/-! ## Assembly notation -/

/-- 95_test_vectors.md §3.1, P1, with its comments. -/
theorem test_assemble_p1 :
    assemble "; host: xl <- 0xFFFF\n    ADD.U 0xFFFF, 0x0001      ; low halves\n    add.u 4660, 1".toList =
      .ok [.addU 0xFFFF#16 0x0001#16, .addU 0x1234#16 0x0001#16] := by decide +kernel

theorem test_assemble_negative_literal :
    assembleLine "NEG.S -42".toList = .ok (some (.negS 0xFFD6#16 0x0000#16)) ∧
    assembleLine "NEG.S −32768".toList = .ok (some (.negS 0x8000#16 0x0000#16)) := by decide +kernel

theorem test_assemble_never_truncates :
    assembleLine "ADD.U 65536, 0".toList = .error .outOfRange ∧
    assembleLine "ADD.S -32769, 0".toList = .error .outOfRange ∧
    assembleLine "ADD.S 0x10000, 0".toList = .error .outOfRange ∧
    assembleLine "ADD.U -1, 0".toList = .error .negativeInUnsigned := by decide +kernel

theorem test_assemble_rejects_other_text :
    assembleLine ".word 0xA00000000".toList = .error .unknownMnemonic ∧
    assembleLine "NEG.U 1, 2".toList = .error .operandCount ∧
    assembleLine "ADD.U 0x, 2".toList = .error .badLiteral := by decide +kernel

theorem test_disassemble :
    disassemble (.mulS 0xABCD#16 0x0123#16) = some "MUL.S 0xABCD, 0x0123".toList ∧
    disassemble (.negU 0x000F#16 0x0000#16) = some "NEG.U 0x000F".toList := by decide +kernel

/-! ## Work -/

/-- MUL.S of −3 by −1: one add for the one 1 bit of mag(B), the negates of A and B, and none of the product (70_reset_and_hazards.md R117). -/
theorem test_work_mulS : work (.mulS 0xFFFD#16 0xFFFF#16) = some ⟨2, 1, 16⟩ := by decide

/-- DIV.S of −7 by 2: sixteen compares, the negate of A, and the negates of the quotient and the remainder. -/
theorem test_work_divS : work (.divS 0xFFF9#16 0x0002#16) = some ⟨35, 0, 16⟩ := by decide

/-! ## An input for the hypotheses of each statement, one for each clause that has them -/

/-- A state with one DIV.U by zero presented, a record of before, and draws used: no run reaches it from reset in one step. -/
def busy : State :=
  { commands := [0x612340000#36], record := some (.addition ⟨0x8000#16, true⟩), drawIndex := 7 }

theorem test_hyp_CommandWordFields : (2 : Nat) < 3 ∧ (15 : Nat) < 16 := by decide

theorem test_hyp_DecodingIsTotal :
    (0b000#3 = 0b000#3) ∧ (0b001#3 = 0b001#3) ∧ (0b010#3 = 0b010#3) ∧ (0b011#3 = 0b011#3) ∧ (0b100#3 = 0b100#3) ∧
    ∀ op ∈ [0b101#3, 0b110#3, 0b111#3], op = 0b101#3 ∨ op = 0b110#3 ∨ op = 0b111#3 := by decide

theorem test_hyp_OpcodeTableAgreesWithDecoder :
    (⟨.reserved111, none, 0xE00000000#36, 0xE00000000#36⟩ : OpcodeRow) ∈ opcodeTable := by decide

theorem test_hyp_ReservedWordsRefused :
    opField 0xAFFFFFFFF#36 = 0b101#3 ∧ opField 0xD00000000#36 = 0b110#3 ∧ opField 0xFFFFFFFFF#36 = 0b111#3 := by decide

theorem test_hyp_NegIgnoresFieldB :
    assembleLine "neg.u 0xFFFF".toList = .ok (some (.negU 0xFFFF#16 0x0000#16)) ∧
    (Instr.negU 0xFFFF#16 0x0000#16).op = .neg := by decide +kernel

theorem test_hyp_StepRunsTheDecodedCommand : busy.commands = 0x612340000#36 :: [] := by decide

theorem test_hyp_NothingPresentedNothingDone : { busy with commands := [] }.commands = [] := by decide

theorem test_hyp_PlacedWordRunsNext :
    decodeTableWord 36 0xFFFFFFFFF = some (.reservedOp111 .signed 0xFFFF#16 0xFFFF#16) ∧
    decodeTableWord 40 0x000000000 = some (.addU 0x0000#16 0x0000#16) := by decide

theorem test_hyp_EveryCommandProducesItsRecord :
    (Instr.divS 0x8000#16 0x0000#16).WellFormed ∧ ¬ (Instr.reservedOp101 .signed 0x0000#16 0x0000#16).WellFormed := by decide

theorem test_hyp_RecordDependsOnTheCommandAlone :
    (decode 0x780000001#36).WellFormed ∧ drawsFreeValues (decode 0x780000001#36) = false ∧
    (decode 0x780000000#36).WellFormed ∧ drawsFreeValues (decode 0x780000000#36) = true := by decide

theorem test_hyp_CommandsAreIdempotent :
    (decode 0x600000001#36).WellFormed ∧ drawsFreeValues (decode 0x600000001#36) = false ∧
    (decode 0x600000000#36).WellFormed ∧ drawsFreeValues (decode 0x600000000#36) = true := by decide

theorem test_hyp_WordInterpretations : sign 0x7FFF#16 = false ∧ sign 0x8000#16 = true := by decide

theorem test_hyp_NegSigned : 0x7FFF#16 ≠ 0x8000#16 ∧ 0x8001#16 ≠ 0x8000#16 := by decide

theorem test_hyp_AddSigned : sign 0x7FFF#16 ≠ sign 0x8000#16 := by decide

theorem test_hyp_LiteralCarryTestsOfSubtraction :
    0x0001#16 ≠ 0x0000#16 ∧ 0x7FFF#16 ≠ 0x8000#16 ∧ 0x8000#16 = 0x8000#16 := by decide

theorem test_hyp_AccumulatorNeverOverflows : (15 : Nat) < 16 := by decide

theorem test_hyp_MulSigned : (15 : Nat) ≤ 15 ∧ (15 : Nat) ≤ 31 ∧ (15 : Nat) ≤ 31 ∧ (31 : Nat) ≤ 31 := by decide

theorem test_hyp_DivisionByZeroIsReported : 0x0001#16 ≠ 0x0000#16 := by decide

theorem test_hyp_RestoringDivisionInvariant : 0xFFFF#16 ≠ 0x0000#16 ∧ (16 : Nat) ≤ 16 ∧ (15 : Nat) < 16 := by decide

theorem test_hyp_CompareByTheBorrow :
    (0x8001#16 ≠ 0x0000#16 ∧ (borrowTest 0x8001#16 0x8001#16).ge = true) ∧
    (0x8000#16 ≠ 0x0000#16 ∧ uint 0x8000#16 ≤ 0x8000 ∧ uint 0xFFFF#16 < 2 * uint 0x8000#16) := by decide +kernel

theorem test_hyp_DivUnsigned : 0x8001#16 ≠ 0x0000#16 ∧ uint 0x8000#16 < uint 0x8001#16 := by decide +kernel

theorem test_hyp_DivSigned : 0xFFFF#16 ≠ 0x0000#16 := by decide

theorem test_hyp_DivisionLaws :
    (0xFFFF#16 ≠ 0x0000#16 ∧ ¬ (0x8001#16 = 0x8000#16 ∧ 0xFFFF#16 = 0xFFFF#16)) ∧
    (0xFFFF#16 ≠ 0x0000#16 ∧ 0x8000#16 = 0x8000#16 ∧ 0xFFFF#16 = 0xFFFF#16) := by decide

theorem test_hyp_RemainderHasTheDividendsSign :
    0x0002#16 ≠ 0x0000#16 ∧ sign 0x0007#16 = false ∧ sign 0xFFF9#16 = true := by decide

theorem test_hyp_GuardedReadsNeverSeeADraw :
    Instr.divU 0x1234#16 0x0000#16 = .divU 0x1234#16 0x0000#16 ∧
    Instr.divS 0x8000#16 0xFFFF#16 = .divS 0x8000#16 0xFFFF#16 := by decide

theorem test_hyp_ReportedConditions :
    (Instr.divU 0xFFFF#16 0x0000#16).WellFormed ∧ (Instr.divU 0xFFFF#16 0x0000#16).op = .div ∧
    (Instr.divU 0xFFFF#16 0x0000#16).mode = .unsigned ∧
    Op.div ∈ [Op.neg, .add, .sub, .mul, .div] ∧ ¬ (Op.div = .div ∧ Mode.signed = .unsigned) := by decide

theorem test_hyp_StepKeepsTheRecordConsistent :
    busy.recordConsistent = true ∧
    step { busy with commands := [] } = .next { busy with commands := [] } :=
  ⟨by decide, rfl⟩

/-- A command presented in a state that satisfies the invariant has a next state too. -/
theorem test_hyp_StepKeepsTheRecordConsistent_busy : ∃ t, step busy = .next t := ⟨_, rfl⟩

theorem test_hyp_KeptDutyMeansNoRefusal : busy.commandsOnly = true := by decide

theorem test_hyp_RunsCompleteWithSoloRecords :
    (∀ v ∈ [0x612340000#36, 0x78000FFFF#36], (decode v).WellFormed) ∧ (decode 0x700000000#36).WellFormed :=
  ⟨List.forall_mem_cons.2 ⟨by decide, List.forall_mem_singleton.2 (by decide)⟩, by decide⟩

theorem test_hyp_ReservedWordEndsTheRun :
    (∀ v ∈ [0x000010002#36], (decode v).WellFormed) ∧ ¬ (decode 0xA00000000#36).WellFormed :=
  ⟨List.forall_mem_singleton.2 (by decide), by decide⟩

theorem test_hyp_WorkIsBounded :
    (Instr.mulS 0x8000#16 0x7FFF#16).WellFormed ∧
    (0x8000#16).getLsbD 15 = true ∧ (0x8000#16).getLsbD 14 = false ∧ 0xFFFF#16 ≠ 0x0000#16 := by decide

/-- The inputs of the bounds, at their limits or near them: sixteen adds for MUL.U, fifteen and the product's negate for MUL.S, three negates for DIV.S. -/
theorem test_hyp_WorkIsBounded_bounds :
    (work (.mulU 0x0001#16 0xFFFF#16) = some ⟨0, 16, 16⟩ ∧ (Instr.mulU 0x0001#16 0xFFFF#16).op = .mul) ∧
    (work (.mulS 0x8000#16 0x7FFF#16) = some ⟨1, 16, 16⟩ ∧ (Instr.mulS 0x8000#16 0x7FFF#16).op = .mul) ∧
    (work (.divS 0x8000#16 0x0001#16) = some ⟨35, 0, 16⟩ ∧ (Instr.divS 0x8000#16 0x0001#16).op = .div) := by decide +kernel

theorem test_hyp_AssemblerReadsTheDisassembler :
    (Instr.negS 0x8000#16 0x0000#16).assemblerForm = true ∧ (Instr.divS 0x8000#16 0xFFFF#16).assemblerForm = true ∧
    "neg.s 0x8000".toList ∈ ["NEG.S 0x8000".toList, "NEG.S 0x8000".toList.map Char.toLower] ∧
    [' ', '\t', '\r'].all isBlank = true ∧ ([] : List Char).all isBlank = true := by decide +kernel

theorem test_hyp_AssembledCommandsAreCommands :
    assembleLine "Sub.s 0x8000, -32768 ; most negative".toList = .ok (some (.subS 0x8000#16 0x8000#16)) := by decide +kernel

theorem test_hyp_LiteralsAreNeverTruncated :
    ([(15, true), (10, false)] : List (Nat × Bool)) ≠ [] ∧
    (∀ d ∈ ([(15, true), (10, false)] : List (Nat × Bool)), d.1 < 16) ∧
    ('-' = '-' ∨ '-' = '−') ∧ ('−' = '-' ∨ '−' = '−') ∧
    ([6, 5, 5, 3, 5] : List Nat) ≠ [] ∧ ∀ d ∈ ([6, 5, 5, 3, 5] : List Nat), d < 10 := by decide

end Sys2Proof.Tests
end

section
/-! Proofs about the result record (10_state.md R16, R20): what it depends on, and which kind it has. -/

namespace Sys2Proof.Machine

/-! ### What the record depends on -/

/-- A command that draws nothing delivers one record, the same from every state. -/
theorem exec_of_not_draws {i : Instr} (hw : i.WellFormed) (hd : drawsFreeValues i = false) :
    ∃ r, ∀ s, exec i s = .next (s.deliver r) := by
  cases i with
  | divU a b | divS a b =>
    have hb : b ≠ 0x0000#16 := by
      rintro rfl
      cases hd
    exact ⟨_, fun s => ((divide_cases _ a b s).resolve_left fun h => hb h.1).2⟩
  | reservedOp101 | reservedOp110 | reservedOp111 => cases hw
  | _ => exact ⟨_, fun _ => rfl⟩

/-- A command that draws delivers the record of a division by zero, with some draws. -/
theorem exec_of_draws {i : Instr} (hd : drawsFreeValues i = true) (s : State) :
    ∃ q r, exec i s = .next (s.nextDraw.deliver (.division (divisionByZeroRecord q r))) := by
  obtain ⟨hop, hb⟩ := (drawsFreeValues_iff i).1 hd
  cases i with
  | divU a b | divS a b => exact ⟨_, _, ((divide_cases _ a b s).resolve_right fun h => h.1 hb).2⟩
  | _ => cases hop

/-- The records of two divisions by zero are the same but for the draws. -/
theorem sameButDraws_divisionByZeroRecord (q r q' r' : Word) :
    (Record.division (divisionByZeroRecord q r)).sameButDraws (.division (divisionByZeroRecord q' r')) = true := rfl

/-- Settles O15: a command that draws nothing has one record for all states, and two divisions by zero differ in their
draws alone. -/
theorem recordDependsOnTheCommandAlone : Obligations.RecordDependsOnTheCommandAlone := by
  intro w s s' hw
  rw [step_present, step_present]
  cases hd : drawsFreeValues (decode w) with
  | false =>
    obtain ⟨r, hr⟩ := exec_of_not_draws hw hd
    exact ⟨_, _, r, r, hr s, hr s', rfl, rfl, sameButDraws_refl r, fun _ => rfl⟩
  | true =>
    obtain ⟨q, r, h⟩ := exec_of_draws hd s
    obtain ⟨q', r', h'⟩ := exec_of_draws hd s'
    exact ⟨_, _, _, _, h, h', rfl, rfl, sameButDraws_divisionByZeroRecord q r q' r', nofun⟩

/-! ### The kind of the record, by OP and in both modes -/

theorem exec_neg_add_sub_record {o : Op} (ho : o = .neg ∨ o = .add ∨ o = .sub) (m : Mode) (a b : Word) (s : State) :
    ∃ t r, exec (Instr.ofFields o m a b) s = .next t ∧ t.record = some (.addition r) := by
  rcases ho with rfl | rfl | rfl <;> cases m <;> exact ⟨_, _, rfl, rfl⟩

theorem exec_mul_record (m : Mode) (a b : Word) (s : State) :
    ∃ t r, exec (Instr.ofFields .mul m a b) s = .next t ∧ t.record = some (.multiplication r) := by
  cases m <;> exact ⟨_, _, rfl, rfl⟩

theorem exec_ofFields_div (m : Mode) (a b : Word) (s : State) :
    exec (Instr.ofFields .div m a b) s = divide m a b s := by
  cases m <;> rfl

/-- A division by zero delivers a DivisionResult as any other division does. -/
theorem exec_div_record (m : Mode) (a b : Word) (s : State) :
    ∃ t r, exec (Instr.ofFields .div m a b) s = .next t ∧ t.record = some (.division r) := by
  rw [exec_ofFields_div]
  rcases divide_cases m a b s with ⟨-, h⟩ | ⟨-, h⟩ <;> exact ⟨_, _, h, rfl⟩

/-- Settles O14, by the eight values of OP. -/
theorem opSelectsTheRecordKind : Obligations.OpSelectsTheRecordKind := by
  intro w s
  rw [step_present, decode]
  cases h : Op.ofBits (opField w) with
  | neg | add | sub => exact exec_neg_add_sub_record (by decide) _ _ _ s
  | mul => exact exec_mul_record _ _ _ s
  | div => exact exec_div_record _ _ _ s
  | reserved101 | reserved110 | reserved111 =>
    rw [← Op.toBits_ofBits (opField w), h]
    rfl

end Sys2Proof.Machine
end

section
/-! Proofs about the encoding of command words (30_encoding.md R46, R51, R52): where the fields stand, and what each
value of OP selects. -/

namespace Sys2Proof

/-! ### The bits of a field are bits of the word -/

theorem getLsbD_opField (w : CommandWord) {k : Nat} (hk : k < 3) : (opField w).getLsbD k = w.getLsbD (33 + k) := by
  simp [opField, hk]

theorem getLsbD_aField (w : CommandWord) {k : Nat} (hk : k < 16) : (aField w).getLsbD k = w.getLsbD (16 + k) := by
  simp [aField, hk]

theorem getLsbD_bField (w : CommandWord) {k : Nat} (hk : k < 16) : (bField w).getLsbD k = w.getLsbD k := by
  simp [bField, hk]

/-- Settles O2: the decoder's fields of the command's word are the fields it was packed from, and each bit of a field
is a bit of the word. -/
theorem commandWordFields : Obligations.CommandWordFields := by
  intro i
  have hop : opField (encode i) = i.op.toBits := opField_packFields _ _ _ _
  have ha : aField (encode i) = i.a := aField_packFields _ _ _ _
  have hb : bField (encode i) = i.b := bField_packFields _ _ _ _
  refine ⟨fun k hk => ?_, modeField_packFields _ _ _ _, fun k hk => ?_, fun k hk => ?_⟩
  · rw [← hop, getLsbD_opField _ hk]
  · rw [← ha, getLsbD_aField _ hk]
  · rw [← hb, getLsbD_bField _ hk]

/-! ### What OP and M select -/

theorem decode_packFields_toBit (o : BitVec 3) (m : Mode) (a b : Word) :
    decode (packFields o m.toBit a b) = Instr.ofFields (Op.ofBits o) m a b := by
  rw [decode_packFields, Mode.ofBit_toBit]

theorem ofFields_op (o : Op) (m : Mode) (a b : Word) : (Instr.ofFields o m a b).op = o := by
  cases o <;> cases m <;> rfl

theorem ofFields_b (o : Op) (m : Mode) (a b : Word) : (Instr.ofFields o m a b).b = b := by
  cases o <;> cases m <;> rfl

end Sys2Proof

namespace Sys2Proof.Machine

/-- Settles O6, by the eight values of OP: the mode tells the two commands of an OP apart, and a reserved OP is refused
in either mode. -/
theorem decodingIsTotal : Obligations.DecodingIsTotal := by
  intro op m a b w
  have hw : decode w = Instr.ofFields (Op.ofBits op) m a b := decode_packFields_toBit op m a b
  rw [hw]
  refine ⟨?add, ?sub, ?mul, ?div, ?neg, ?reserved⟩
  case add | sub | mul | div | neg =>
    rintro rfl
    cases m <;> rfl
  case reserved =>
    intro h s
    rw [step_present, hw]
    rcases h with rfl | rfl | rfl <;> rfl

/-! ### Field B of NEG -/

theorem exec_neg_ignores_b (m : Mode) (a b b' : Word) (s : State) :
    exec (Instr.ofFields .neg m a b) s = exec (Instr.ofFields .neg m a b') s := by
  cases m <;> rfl

/-- Everything a line that assembles to a command can be: a mnemonic with its operands. -/
theorem assembleLine_eq_some {line : List Char} {i : Instr} (h : assembleLine line = .ok (some i)) :
    ∃ name op m args a b, readMnemonic name = some (op, m) ∧ readOperands op m args = .ok (a, b) ∧
      i = Instr.ofFields op m a b := by
  unfold assembleLine at h
  dsimp only at h
  split at h
  next => cases h
  next =>
    split at h
    next => cases h
    next op m hname =>
      split at h
      next => cases h
      next a b hargs =>
        cases h
        exact ⟨_, op, m, _, a, b, hname, hargs, rfl⟩

/-- The assembler sets field B of a NEG to 0x0000. -/
theorem oneOperand_b {m : Mode} {args : List (List Char)} {a b : Word} (h : oneOperand m args = .ok (a, b)) :
    b = 0x0000#16 := by
  unfold oneOperand at h
  split at h
  next =>
    split at h <;> cases h
    rfl
  next => cases h

/-- Settles O9: the meaning of NEG never reads field B, and the operands that the assembler reads for a NEG have
B = 0x0000. -/
theorem negIgnoresFieldB : Obligations.NegIgnoresFieldB := by
  constructor
  · intro m a b b' s
    have hneg : Op.ofBits 0b100#3 = .neg := rfl
    rw [step_present, step_present, decode_packFields_toBit, decode_packFields_toBit, hneg,
      exec_neg_ignores_b m a b' b]
    obtain ⟨t, -, ht, -⟩ := exec_neg_add_sub_record (.inl rfl) m a b s
    exact ⟨t, ht, ht⟩
  · intro line i h hop
    obtain ⟨-, op, m, args, a, b, -, hargs, rfl⟩ := assembleLine_eq_some h
    rw [ofFields_op] at hop
    subst hop
    rw [ofFields_b]
    exact oneOperand_b hargs

end Sys2Proof.Machine
end

section
/-! Proofs about ADD (41_adder_subtractor.md R69, R70, R72, R73): the two overflow flags of a 16-bit add, in gate form
and as the range of the exact sum, and what the two commands deliver. -/

namespace Sys2Proof

theorem decode_writtenWord (t : BitVec 4) (a b : Word) :
    decode (writtenWord t a b) = Instr.ofFields (Op.ofBits (t.extractLsb' 1 3)) (Mode.ofBit (t.getLsbD 0)) a b := by
  rw [writtenWord_eq_packFields, decode_packFields]

end Sys2Proof

namespace Sys2Proof.Machine

/-! ### The overflow flags of a 16-bit add -/

/-- The sum at one bit position, from the carry into it (41_adder_subtractor.md R67). -/
theorem getLsbD_addN_sum {n : Nat} (x y : BitVec n) {i : Nat} (h : i < n) :
    (addN x y).sum.getLsbD i = (x.getLsbD i ^^ y.getLsbD i ^^ (addN x y).c.getLsbD i) := by
  simp only [addN, getLsbD_bitsOf, h, Nat.lt_succ_of_lt h, decide_true, Bool.true_and, Bool.xor_assoc]

/-- The carry out of one bit position (41_adder_subtractor.md R67). -/
theorem getLsbD_addN_c_succ {n : Nat} (x y : BitVec n) {i : Nat} (h : i < n) :
    (addN x y).c.getLsbD (i + 1) =
      ((x.getLsbD i && y.getLsbD i) || ((addN x y).c.getLsbD i && (x.getLsbD i ^^ y.getLsbD i))) := by
  simp only [addN, getLsbD_bitsOf, carryInto, Nat.succ_lt_succ h, Nat.lt_succ_of_lt h, decide_true, Bool.true_and]

/-- Settles O23: the two carries of the flag meet at bit 15, so its two operand bits and its carry in are all the
cases there are. -/
theorem signedOverflowIsASignChange : Obligations.SignedOverflowIsASignChange := by
  intro x y
  refine ⟨rfl, ?_⟩
  rw [signedAddOverflow, getLsbD_addN_c_succ x y (i := 15) (by decide), getLsbD_addN_sum x y (i := 15) (by decide)]
  cases x.getLsbD 15 <;> cases y.getLsbD 15 <;> cases (addN x y).c.getLsbD 15 <;> decide

/-- The carry out of bit 15 is the library's unsigned overflow. -/
theorem unsignedAddOverflow_addN (x y : Word) : unsignedAddOverflow (addN x y) = x.uaddOverflow y := by
  rw [unsignedAddOverflow, addN_carry x y 16 (Nat.le_refl _), BitVec.carry, BitVec.uaddOverflow,
    Nat.mod_eq_of_lt x.isLt, Nat.mod_eq_of_lt y.isLt, Bool.toNat_false, Nat.add_zero]

/-- The XOR of the two carries is the library's signed overflow, since both are a change of sign. -/
theorem signedAddOverflow_addN (x y : Word) : signedAddOverflow (addN x y) = x.saddOverflow y := by
  have hflag := (signedOverflowIsASignChange x y).2
  rw [addN_sum] at hflag
  rw [Bool.eq_iff_iff, hflag, BitVec.saddOverflow_eq]
  simp [BitVec.msb_eq_getLsbD_last]

/-- An unsigned sum wraps exactly when it does not fit 16 bits (41_adder_subtractor.md R71). -/
theorem uaddOverflow_iff_uint (x y : Word) : x.uaddOverflow y = true ↔ 65536 ≤ uint x + uint y := by
  rw [BitVec.uaddOverflow, decide_eq_true_iff, uint_eq_toNat, uint_eq_toNat]

theorem uaddOverflow_zero (x : Word) : x.uaddOverflow 0x0000#16 = false :=
  decide_eq_false (Nat.not_le.2 x.isLt)

theorem zero_uaddOverflow (x : Word) : BitVec.uaddOverflow 0x0000#16 x = false := by
  rw [BitVec.uaddOverflow, Nat.add_comm]
  exact uaddOverflow_zero x

/-- A signed sum wraps exactly when it leaves the range of a Word (41_adder_subtractor.md R71). -/
theorem saddOverflow_iff_sint (x y : Word) :
    x.saddOverflow y = true ↔ (sint x + sint y < -32768 ∨ 32767 < sint x + sint y) := by
  rw [BitVec.saddOverflow, Bool.or_eq_true, decide_eq_true_iff, decide_eq_true_iff, sint_eq_toInt, sint_eq_toInt]
  omega

/-! ### What ADD delivers -/

theorem exec_addU (a b : Word) (s : State) :
    exec (.addU a b) s = .next (s.deliver (.addition ⟨a + b, a.uaddOverflow b⟩)) := by
  rw [← addN_sum, ← unsignedAddOverflow_addN]
  rfl

theorem exec_addS (a b : Word) (s : State) :
    exec (.addS a b) s = .next (s.deliver (.addition ⟨a + b, a.saddOverflow b⟩)) := by
  rw [← addN_sum, ← signedAddOverflow_addN]
  rfl

/-- Settles O24: the carry out is the library's unsigned overflow, and the sum is taken modulo 2^16. -/
theorem addUnsigned : Obligations.AddUnsigned := by
  intro a b s
  refine ⟨decode_writtenWord _ a b, ⟨_, exec_addU a b s, (addN_sum a b).symm, (unsignedAddOverflow_addN a b).symm,
    ?sum, uaddOverflow_iff_uint a b⟩, ?add_zero, ?zero_add, ?_, ?_, ?_⟩
  case sum => rw [uint_eq_toNat, uint_eq_toNat, uint_eq_toNat, BitVec.toNat_add]
  case add_zero => rw [exec_addU, BitVec.add_zero, uaddOverflow_zero]
  case zero_add => rw [exec_addU, BitVec.zero_add, zero_uaddOverflow]
  all_goals exact exec_addU _ _ s

/-- Settles O25: the flag is the library's signed overflow, and operands of opposite sign have none because it is
a change of a sign that both operands share. -/
theorem addSigned : Obligations.AddSigned := by
  intro a b s
  refine ⟨decode_writtenWord _ a b, ⟨_, exec_addS a b s, (addN_sum a b).symm, (signedAddOverflow_addN a b).symm,
    ?sum, saddOverflow_iff_sint a b, ?opposite⟩, ?_, ?_, ?_, ?_⟩
  case sum => rw [sint_eq_toInt, sint_eq_toInt, BitVec.ofInt_add, BitVec.ofInt_toInt, BitVec.ofInt_toInt]
  case opposite =>
    intro hne
    rw [← signedAddOverflow_addN, Bool.eq_false_iff]
    exact fun hov => hne ((signedOverflowIsASignChange a b).2.1 hov).1
  all_goals exact exec_addS _ _ s

end Sys2Proof.Machine
end

section
/-! Proofs about decoding and encoding (30_encoding.md §1, §3, §4): they are inverse to each other, the number of a command
word, and the rows of the opcode table. -/

namespace Sys2Proof

/-! ### The fields of a command name it -/

theorem ofFields_mode (o : Op) (m : Mode) (a b : Word) : (Instr.ofFields o m a b).mode = m := by
  cases o <;> cases m <;> rfl

theorem ofFields_a (o : Op) (m : Mode) (a b : Word) : (Instr.ofFields o m a b).a = a := by
  cases o <;> cases m <;> rfl

theorem ofFields_fields (i : Instr) : Instr.ofFields i.op i.mode i.a i.b = i := by
  cases i <;> rfl

/-- Settles O3: the decoder reads back the four fields that the encoder packs. -/
theorem decodeOfEncode : Obligations.DecodeOfEncode := by
  intro i
  rw [encode, decode_packFields_toBit, Op.ofBits_toBits, ofFields_fields]

/-! ### The fields of a word make it up -/

theorem packFields_fields (w : CommandWord) : packFields (opField w) (modeField w) (aField w) (bField w) = w := by
  apply BitVec.eq_of_getLsbD_eq
  intro i hi
  rw [getLsbD_packFields]
  split
  next hb => exact getLsbD_bField w hb
  next hb =>
    split
    next ha => rw [getLsbD_aField w (by omega), Nat.add_sub_cancel' (by omega)]
    next ha =>
      split
      next hm => rw [hm, modeField]
      next hm => rw [getLsbD_opField w (by omega), Nat.add_sub_cancel' (by omega)]

theorem encode_ofFields (o : Op) (m : Mode) (a b : Word) :
    encode (Instr.ofFields o m a b) = packFields o.toBits m.toBit a b := by
  rw [encode, ofFields_op, ofFields_mode, ofFields_a, ofFields_b]

/-- Settles O4: the encoder packs again the four fields that the decoder reads. -/
theorem encodeOfDecode : Obligations.EncodeOfDecode := by
  intro w
  rw [decode, encode_ofFields, Op.toBits_ofBits, Mode.toBit_ofBit, packFields_fields]

/-! ### A command word as a number -/

theorem toNat_append_eq {k n : Nat} (x : BitVec k) (y : BitVec n) : (x ++ y).toNat = x.toNat * 2 ^ n + y.toNat := by
  rw [BitVec.toNat_append, ← Nat.shiftLeft_add_eq_or_of_lt y.isLt, Nat.shiftLeft_eq]

theorem toNat_packFields (o : BitVec 3) (m : Bool) (a b : Word) :
    (packFields o m a b).toNat = o.toNat * 2 ^ 33 + m.toNat * 2 ^ 32 + a.toNat * 2 ^ 16 + b.toNat := by
  rw [packFields, toNat_append_eq, toNat_append_eq, toNat_append_eq, BitVec.toNat_ofBool]
  ring

/-- The number of a command word, read at 36 bits or more, is that word. -/
theorem commandWordOf_toNat {nbits : Nat} (h : 36 ≤ nbits) (w : CommandWord) : commandWordOf nbits w.toNat = some w := by
  have hlt : w.toNat < 2 ^ nbits := w.isLt.trans_le (Nat.pow_le_pow_right (by decide) h)
  simp only [commandWordOf, Nat.mod_eq_of_lt hlt, w.isLt, if_true, BitVec.ofNat_toNat, BitVec.setWidth_eq]

theorem decodeTableWord_encode {nbits : Nat} (h : 36 ≤ nbits) (i : Instr) :
    decodeTableWord nbits (encode i).toNat = some i := by
  rw [decodeTableWord, commandWordOf_toNat h, Option.map_some, decodeOfEncode i]

/-- Settles O5: the number is the sum of the fields at their weights, and A and B stand below 2^32. -/
theorem commandWordAsNumber : Obligations.CommandWordAsNumber := by
  intro i
  rw [Machine.uint_eq_toNat, Machine.uint_eq_toNat]
  have hnum : (encode i).toNat = i.op.toBits.toNat * 2 ^ 33 + i.mode.toBit.toNat * 2 ^ 32 + i.a.toNat * 2 ^ 16 + i.b.toNat :=
    toNat_packFields _ _ _ _
  have ha := i.a.isLt
  have hb := i.b.isLt
  exact ⟨hnum, by omega, decodeTableWord_encode (by decide) i, decodeTableWord_encode (by decide) i⟩

/-! ### The opcode table -/

/-- No row of the table compares a bit of A or B. -/
theorem mask_of_mem_opcodeTable :
    ∀ row ∈ opcodeTable, row.mask = packFields (opField row.mask) (modeField row.mask) 0x0000#16 0x0000#16 := by
  decide

theorem accepts_packFields {row : OpcodeRow} (h : row ∈ opcodeTable) (o : BitVec 3) (m : Bool) (a b : Word) :
    row.accepts (packFields o m a b) = row.accepts (packFields o m 0x0000#16 0x0000#16) := by
  rw [OpcodeRow.accepts, OpcodeRow.accepts, mask_of_mem_opcodeTable row h, packFields_and_mask, packFields_and_mask]

theorem names_ofFields (row : OpcodeRow) (o : Op) (m : Mode) (a b : Word) :
    row.names (Instr.ofFields o m a b) = row.names (Instr.ofFields o m 0x0000#16 0x0000#16) := by
  simp only [OpcodeRow.names, ofFields_op, ofFields_mode]

/-- The table's rows against the decoder, for each OP and M. -/
theorem accepts_eq_names : ∀ (o : BitVec 3) (m : Bool), ∀ row ∈ opcodeTable,
    row.accepts (packFields o m 0x0000#16 0x0000#16) =
      row.names (Instr.ofFields (Op.ofBits o) (Mode.ofBit m) 0x0000#16 0x0000#16) := by
  decide

/-- Of the table's rows one accepts, for each OP and M. -/
theorem one_row_accepts : ∀ (o : BitVec 3) (m : Bool),
    (opcodeTable.filter fun row => row.accepts (packFields o m 0x0000#16 0x0000#16)).length = 1 := by
  decide

/-- Settles O7: neither a row nor the decoder's choice of a command reads A or B, so OP and M are all the cases there are. -/
theorem opcodeTableAgreesWithDecoder : Obligations.OpcodeTableAgreesWithDecoder := by
  intro w
  rw [← packFields_fields w, decode_packFields]
  constructor
  · intro row hrow
    rw [accepts_packFields hrow, names_ofFields, accepts_eq_names _ _ row hrow]
  · rw [List.filter_congr fun row hrow => accepts_packFields hrow _ _ _ _, one_row_accepts]

/-- Settles O1, by decoding each of the thirteen words. -/
theorem wordsWrittenOutDecode : Obligations.WordsWrittenOutDecode := by
  refine ⟨?_, ?_, ?_, ?_, ?_, ?_, ?_, ?_, ?_, ?_, ?_, ?_, ?_⟩ <;> decide

end Sys2Proof
end

section
/-! Proofs about steps and runs (60_exceptions.md §1, 20_memory.md §4 and §6, 70_reset_and_hazards.md §1 to §3): which steps
have a next state, what a run of commands keeps, and where a reserved word ends it. -/

namespace Sys2Proof

theorem op_decode (w : CommandWord) : (decode w).op = Op.ofBits (opField w) := by
  rw [decode, ofFields_op]

end Sys2Proof

namespace Sys2Proof.Machine

/-! ### One step -/

/-- Settles O10: the model's lemma on a step with a word presented. -/
theorem stepRunsTheDecodedCommand : Obligations.StepRunsTheDecodedCommand :=
  fun _ _ _ h => step_of_commands h

theorem step_of_commands_nil {s : State} (h : s.commands = []) : step s = .next s := by
  simp only [step, takeCommand, h, idle]

/-- Settles O11. -/
theorem nothingPresentedNothingDone : Obligations.NothingPresentedNothingDone :=
  fun _ => step_of_commands_nil

/-- Settles O12: a number that reads as a command is the number of a word, and that word is presented. -/
theorem placedWordRunsNext : Obligations.PlacedWordRunsNext := by
  intro s nbits w i h
  obtain ⟨c, hc, rfl⟩ := Option.map_eq_some_iff.1 h
  rw [State.withFetchWord, presentNumber, hc]
  exact step_present s c

/-- A well-formed command has a record, in every state. -/
theorem exec_of_wellFormed {i : Instr} (hw : i.WellFormed) (s : State) :
    ∃ t r, exec i s = .next t ∧ t.record = some r := by
  cases hd : drawsFreeValues i with
  | false =>
    obtain ⟨r, hr⟩ := exec_of_not_draws hw hd
    exact ⟨_, r, hr s, rfl⟩
  | true =>
    obtain ⟨q, r, h⟩ := exec_of_draws hd s
    exact ⟨_, _, h, rfl⟩

/-- A command that is not well formed is refused with its OP, in every state. -/
theorem exec_of_not_wellFormed {i : Instr} (hw : ¬ i.WellFormed) (s : State) :
    exec i s = .refused (.reservedOp i.op.toBits) := by
  cases i with
  | reservedOp101 | reservedOp110 | reservedOp111 => rfl
  | _ => exact absurd rfl hw

theorem exec_decode_of_not_wellFormed {w : CommandWord} (hw : ¬ (decode w).WellFormed) (s : State) :
    exec (decode w) s = .refused (.reservedOp (opField w)) := by
  rw [exec_of_not_wellFormed hw, op_decode, Op.toBits_ofBits]

/-- Settles O13: whether the next presented word is well formed decides between its record and its refusal. -/
theorem everyCommandProducesItsRecord : Obligations.EveryCommandProducesItsRecord := by
  refine ⟨fun i s hw => exec_of_wellFormed hw s, fun i s hw => exec_of_not_wellFormed hw s, fun s => ?_⟩
  cases hc : s.commands with
  | nil => exact .inl ⟨s, step_of_commands_nil hc⟩
  | cons w rest =>
    rw [step_of_commands hc]
    by_cases hw : (decode w).WellFormed
    · obtain ⟨t, -, ht, -⟩ := exec_of_wellFormed hw { s with commands := rest }
      exact .inl ⟨t, ht⟩
    · exact .inr ⟨w, rest, rfl, hw, exec_decode_of_not_wellFormed hw _⟩

/-- Settles O16: a command that draws nothing delivers one record in every state, and delivering it again changes nothing;
a division by zero draws again. -/
theorem commandsAreIdempotent : Obligations.CommandsAreIdempotent := by
  intro w s hw
  cases hd : drawsFreeValues (decode w) with
  | false =>
    obtain ⟨r, hr⟩ := exec_of_not_draws hw hd
    exact ⟨_, _, r, r, hr s, hr (s.deliver r), rfl, rfl, sameButDraws_refl r, fun _ => ⟨rfl, rfl⟩, nofun⟩
  | true =>
    obtain ⟨q, r, h⟩ := exec_of_draws hd s
    obtain ⟨q', r', h'⟩ := exec_of_draws hd (s.nextDraw.deliver (.division (divisionByZeroRecord q r)))
    exact ⟨_, _, _, _, h, h', rfl, rfl, sameButDraws_divisionByZeroRecord q r q' r', nofun, fun _ => ⟨rfl, rfl⟩⟩

/-! ### Runs -/

theorem commandsOnly_iff (s : State) : s.commandsOnly = true ↔ ∀ w ∈ s.commands, (decode w).WellFormed :=
  List.all_eq_true

/-- Settles O46: a step leaves the rest of the list, or all of it where it is empty. -/
theorem keptDutyMeansNoRefusal : Obligations.KeptDutyMeansNoRefusal := by
  intro s hs
  cases hc : s.commands with
  | nil => exact ⟨s, step_of_commands_nil hc, hs⟩
  | cons w rest =>
    rw [commandsOnly_iff, hc, List.forall_mem_cons] at hs
    obtain ⟨hw, hrest⟩ := hs
    obtain ⟨t, -, ht, -⟩ := exec_of_wellFormed hw { s with commands := rest }
    exact ⟨t, (step_of_commands hc).trans ht, (commandsOnly_iff t).2 (by rwa [exec_commands ht])⟩

/-- A run over well-formed commands goes on from a state in which what was presented after them is presented next. -/
theorem run_past_commands {before rest : List CommandWord} (h : ∀ v ∈ before, (decode v).WellFormed) {s : State}
    (hs : s.commands = before ++ rest) :
    ∃ t, t.commands = rest ∧ ∀ k, Sys2Proof.core.run (before.length + k) s = Sys2Proof.core.run k t := by
  induction before generalizing s with
  | nil => exact ⟨s, hs, fun k => by rw [List.length_nil, Nat.zero_add]⟩
  | cons v before ih =>
    obtain ⟨hv, hbefore⟩ := List.forall_mem_cons.1 h
    obtain ⟨t, -, ht, -⟩ := exec_of_wellFormed hv { s with commands := before ++ rest }
    obtain ⟨u, hu, hrun⟩ := ih hbefore (exec_commands ht)
    refine ⟨u, hu, fun k => ?_⟩
    rw [List.length_cons, Nat.add_right_comm, run_succ_of_next ((step_of_commands hs).trans ht), hrun]

theorem aloneRecord_of_step {w : CommandWord} {n : Nat} {t : State}
    (h : step { commands := [w], record := none, drawIndex := n } = .next t) : aloneRecord w n = t.record := by
  rw [aloneRecord, h]

/-- Settles O47: the commands before `w` leave a state in which `w` is presented next, and the record of `w` does not depend
on that state but for the draws. -/
theorem runsCompleteWithSoloRecords : Obligations.RunsCompleteWithSoloRecords := by
  intro before w after s hbefore hw
  obtain ⟨t, ht, hrun⟩ := run_past_commands hbefore (s := { s with commands := before ++ w :: after }) rfl
  obtain ⟨u, u', r, r', hu, hu', hr, hr', hsame, -⟩ := recordDependsOnTheCommandAlone w
    { t with commands := after } { commands := [], record := none, drawIndex := s.drawIndex } hw
  have hstep : step t = .next u := (step_of_commands ht).trans hu
  have halone : aloneRecord w s.drawIndex = some r' := (aloneRecord_of_step hu').trans hr'
  exact ⟨u, r, r', (hrun 1).trans (run_succ_of_next hstep), exec_commands (s := { t with commands := after }) hu, hr,
    halone, hsame⟩

/-- Settles O48: the commands before `w` leave a state in which `w` is presented next, and the first step from there is
refused. -/
theorem reservedWordEndsTheRun : Obligations.ReservedWordEndsTheRun := by
  intro before w after s k hbefore hw
  obtain ⟨t, ht, hrun⟩ := run_past_commands hbefore (s := { s with commands := before ++ w :: after }) rfl
  rw [Nat.add_assoc, hrun, Nat.add_comm 1 k]
  exact run_succ_of_refused ((step_of_commands ht).trans (exec_decode_of_not_wellFormed hw _))

/-- A word with a reserved OP decodes to a command that is not well formed. -/
theorem decode_not_wellFormed_of_opField {w : CommandWord}
    (h : opField w = 0b101#3 ∨ opField w = 0b110#3 ∨ opField w = 0b111#3) : ¬ (decode w).WellFormed := by
  rw [decode]
  rcases h with h | h | h <;> rw [h] <;> exact Bool.false_ne_true

/-- Settles O8: the refusals of the three commands, and a run whose first word is one of them. -/
theorem reservedWordsRefused : Obligations.ReservedWordsRefused :=
  ⟨fun _ _ _ _ => ⟨rfl, rfl, rfl⟩, fun _ s _ h =>
    run_succ_of_refused (exec_decode_of_not_wellFormed (decode_not_wellFormed_of_opField h) s)⟩

end Sys2Proof.Machine
end

section
/-! Proofs about the record's bits (20_memory.md R35), the state after reset (10_state.md §8), and division by zero
(43_divider.md R86, 70_reset_and_hazards.md R114). -/

namespace Sys2Proof.Machine

theorem getLsbD_append_ofBool {n : Nat} (x : BitVec n) (c : Bool) : (x ++ BitVec.ofBool c).getLsbD 0 = c := by
  rw [BitVec.getLsbD_append, BitVec.getLsbD_ofBool]
  rfl

theorem additionOfBits_additionBits (r : AdditionResult) : additionOfBits (additionBits r) = r := by
  rw [additionOfBits, additionBits, BitVec.extractLsb'_append_eq_left, getLsbD_append_ofBool]

theorem multiplicationOfBits_multiplicationBits (r : MultiplicationResult) :
    multiplicationOfBits (multiplicationBits r) = r := by
  have hprod : ((r.product ++ BitVec.ofBool r.overflow) ++ r.fullProduct).extractLsb' 33 16 = r.product := by
    rw [BitVec.extractLsb'_append_eq_of_le (by decide)]
    exact BitVec.extractLsb'_append_eq_left
  have hov : ((r.product ++ BitVec.ofBool r.overflow) ++ r.fullProduct).getLsbD 32 = r.overflow := by
    rw [BitVec.getLsbD_append]
    exact getLsbD_append_ofBool _ _
  rw [multiplicationOfBits, multiplicationBits, BitVec.extractLsb'_append_eq_right, hprod, hov]

theorem divisionOfBits_divisionBits (r : DivisionResult) : divisionOfBits (divisionBits r) = r := by
  have hquot : (((r.quotient ++ r.remainder) ++ BitVec.ofBool r.divisionByZero) ++ BitVec.ofBool r.overflow).extractLsb' 18 16
      = r.quotient := by
    rw [BitVec.extractLsb'_append_eq_of_le (by decide), BitVec.extractLsb'_append_eq_of_le (by decide)]
    exact BitVec.extractLsb'_append_eq_left
  have hrem : (((r.quotient ++ r.remainder) ++ BitVec.ofBool r.divisionByZero) ++ BitVec.ofBool r.overflow).extractLsb' 2 16
      = r.remainder := by
    rw [BitVec.extractLsb'_append_eq_of_le (by decide), BitVec.extractLsb'_append_eq_of_le (by decide)]
    exact BitVec.extractLsb'_append_eq_right
  have hzero : (((r.quotient ++ r.remainder) ++ BitVec.ofBool r.divisionByZero) ++ BitVec.ofBool r.overflow).getLsbD 1
      = r.divisionByZero := by
    rw [BitVec.getLsbD_append]
    exact getLsbD_append_ofBool _ _
  rw [divisionOfBits, divisionBits, getLsbD_append_ofBool, hquot, hrem, hzero]

/-- Settles O43, for each kind of record. -/
theorem recordBitsKeepEveryField : Obligations.RecordBitsKeepEveryField :=
  ⟨additionOfBits_additionBits, multiplicationOfBits_multiplicationBits, divisionOfBits_divisionBits,
    fun r => by cases r <;> rfl⟩

/-- Settles O44: nothing is presented and no record stands, so both invariants hold of nothing. -/
theorem resetHoldsNothing : Obligations.ResetHoldsNothing :=
  ⟨reset_commands, reset_record, rfl, rfl, carryInto_zero, carryInto_zero, accumulate_zero, restoringLoop_zero borrowTest⟩

/-! ### Division by zero -/

theorem exec_divU (a b : Word) (s : State) : exec (.divU a b) s = divide .unsigned a b s := rfl

theorem exec_divS (a b : Word) (s : State) : exec (.divS a b) s = divide .signed a b s := rfl

theorem divide_zero (m : Mode) (a : Word) (s : State) :
    divide m a 0x0000#16 s = .next (s.nextDraw.deliver (.division (divisionByZeroRecord
      (Config.dzQuotient s.drawIndex m a) (Config.dzRemainder s.drawIndex m a)))) :=
  ((divide_cases m a 0x0000#16 s).resolve_right fun h => h.1 rfl).2

theorem divide_of_ne_zero {b : Word} (h : b ≠ 0x0000#16) (m : Mode) (a : Word) (s : State) :
    divide m a b s = .next (s.deliver (.division (divideRecord m a b))) :=
  ((divide_cases m a b s).resolve_left fun h' => h h'.1).2

/-- Settles O34, by the two outcomes of a division. -/
theorem divisionByZeroIsReported : Obligations.DivisionByZeroIsReported :=
  ⟨fun a s => ⟨divide_zero .unsigned a s, divide_zero .signed a s⟩,
    fun a _ s h => ⟨⟨_, divide_of_ne_zero h .unsigned a s, rfl⟩, ⟨_, divide_of_ne_zero h .signed a s, rfl⟩⟩⟩

/-- What a host reads of a division, after testing the flag, from any two states. -/
theorem divide_guarded_reads (m : Mode) (a b : Word) (s s' : State) :
    ∃ t t' r r', divide m a b s = .next t ∧ divide m a b s' = .next t' ∧
      t.record = some (.division r) ∧ t'.record = some (.division r') ∧
      r.readQuotient = r'.readQuotient ∧ r.readRemainder = r'.readRemainder ∧
      (r.readQuotient = none ↔ b = 0x0000#16) ∧ (r.readRemainder = none ↔ b = 0x0000#16) := by
  by_cases hb : b = 0x0000#16
  · subst hb
    exact ⟨_, _, _, _, divide_zero m a s, divide_zero m a s', rfl, rfl, rfl, rfl, iff_of_true rfl rfl,
      iff_of_true rfl rfl⟩
  · exact ⟨_, _, _, _, divide_of_ne_zero hb m a s, divide_of_ne_zero hb m a s', rfl, rfl, rfl, rfl, iff_of_false nofun hb,
      iff_of_false nofun hb⟩

/-- Settles O41: a division by zero is read as nothing, and any other division has one record in every state. -/
theorem guardedReadsNeverSeeADraw : Obligations.GuardedReadsNeverSeeADraw := by
  rintro a b s s' i (rfl | rfl)
  · exact divide_guarded_reads .unsigned a b s s'
  · exact divide_guarded_reads .signed a b s s'

end Sys2Proof.Machine
end

section
/-! Proofs about Words (00_scope.md §6, 40_word_model.md): their two values, the negator, the magnitude, and NEG. -/

namespace Sys2Proof.Machine

/-! ### The two values of a Word -/

theorem sign_eq_msb (w : Word) : sign w = w.msb := (BitVec.msb_eq_getLsbD_last w).symm

theorem sign_eq_true_iff (w : Word) : sign w = true ↔ w.toInt < 0 := by
  rw [sign_eq_msb, BitVec.msb_eq_toInt, decide_eq_true_iff]

theorem sign_eq_false_iff (w : Word) : sign w = false ↔ 0 ≤ w.toInt := by
  rw [Bool.eq_false_iff, ne_eq, sign_eq_true_iff, not_lt]

/-- The range of a Word's signed value. -/
theorem toInt_bounds (w : Word) : -32768 ≤ w.toInt ∧ w.toInt ≤ 32767 :=
  ⟨BitVec.le_toInt w, Int.le_of_lt_add_one BitVec.toInt_lt⟩

/-- Settles O17, by the sign bit. -/
theorem wordInterpretations : Obligations.WordInterpretations := by
  intro w
  have hlt := w.isLt
  obtain ⟨hmin, hmax⟩ := toInt_bounds w
  have hval : w.toInt = if w.msb then (w.toNat : Int) - 65536 else w.toNat := BitVec.toInt_eq_msb_cond w
  rw [uint_eq_toNat, sint_eq_toInt]
  refine ⟨by omega, hmin, hmax, (sign_eq_true_iff w).symm, fun h => ?_, fun h => ?_⟩ <;>
    rw [sign_eq_msb] at h <;> simpa only [h, if_true, Bool.false_eq_true, if_false] using hval

/-- The most negative Word is the one whose signed value is least. -/
theorem eq_0x8000_iff_toInt (a : Word) : a = 0x8000#16 ↔ a.toInt = -32768 :=
  ⟨fun h => h ▸ by decide, fun h => BitVec.eq_of_toInt_eq (h.trans (by decide))⟩

theorem toInt_neg_of_ne_0x8000 {a : Word} (h : a ≠ 0x8000#16) : (-a).toInt = -a.toInt :=
  BitVec.toInt_neg_of_ne_intMin h

/-! ### The negator and the magnitude -/

theorem negate_negate {n : Nat} (v : BitVec n) : negate (negate v) = v := by
  rw [negate_eq, negate_eq, BitVec.neg_neg]

theorem uint_negate {n : Nat} (v : BitVec n) : uint (negate v) = (2 ^ n - uint v) % 2 ^ n := by
  rw [negate_eq, uint_eq_toNat, uint_eq_toNat, BitVec.toNat_neg]

/-- Settles O18: the corner values are of the library's negation, and the laws hold at every width. -/
theorem negatorLaws : Obligations.NegatorLaws :=
  ⟨negate_eq _, negate_eq _, negate_eq _, negate_eq _, fun w => ⟨negate_negate w, uint_negate w⟩,
    fun v => ⟨negate_negate v, uint_negate v⟩⟩

@[simp] theorem mag_unsigned (w : Word) : mag w .unsigned = w := by
  rw [mag, recordedSign_unsigned, if_neg Bool.false_ne_true]

/-- The signed magnitude is the library's absolute value. -/
@[simp] theorem mag_signed (w : Word) : mag w .signed = w.abs := by
  rw [mag, recordedSign_signed, sign_eq_msb, negate_eq, BitVec.abs_eq]

theorem toNat_abs_eq_natAbs (w : Word) : w.abs.toNat = w.toInt.natAbs := by
  have hlt := w.isLt
  rw [BitVec.toNat_abs, BitVec.toInt_eq_msb_cond]
  split <;> omega

theorem abs_eq_zero_iff (w : Word) : w.abs = 0x0000#16 ↔ w = 0x0000#16 := by
  rw [BitVec.abs_eq]
  split
  · exact BitVec.neg_eq_zero_iff
  · exact Iff.rfl

theorem mag_eq_zero_iff (w : Word) (m : Mode) : mag w m = 0x0000#16 ↔ w = 0x0000#16 := by
  cases m with
  | unsigned => rw [mag_unsigned]
  | signed => rw [mag_signed, abs_eq_zero_iff]

/-- Settles O19: the magnitude is the library's absolute value. -/
theorem magnitudeIsTheAbsoluteValue : Obligations.MagnitudeIsTheAbsoluteValue := by
  intro w
  obtain ⟨hmin, hmax⟩ := toInt_bounds w
  rw [mag_signed, uint_eq_toNat, toNat_abs_eq_natAbs, sint_eq_toInt]
  exact ⟨rfl, by omega, mag_unsigned w, mag_signed _, mag_eq_zero_iff w⟩

/-! ### NEG -/

theorem exec_negU (a b : Word) (s : State) :
    exec (.negU a b) s = .next (s.deliver (.addition ⟨-a, a != 0x0000#16⟩)) := by
  rw [← negate_eq]
  rfl

theorem exec_negS (a b : Word) (s : State) :
    exec (.negS a b) s = .next (s.deliver (.addition ⟨-a, a == 0x8000#16⟩)) := by
  rw [← negate_eq]
  rfl

end Sys2Proof.Machine
end

section
/-! Proofs about SUB (41_adder_subtractor.md §1 and §3; 90_conflicts.md C1, C2): the flags of the SUB datapath as the range of
the exact difference, what the two commands deliver, and NEG as SUB from 0x0000. -/

namespace Sys2Proof.Machine

/-- Settles O22: the adder's carry out is the library's carry, and its signed test the library's signed overflow. -/
theorem adderClosedForms : Obligations.AdderClosedForms := by
  refine ⟨fun n x y => ⟨?sum, ?carry⟩, fun x y => ?signed⟩
  case sum => rw [addN_sum, uint_eq_toNat, uint_eq_toNat, uint_eq_toNat, BitVec.toNat_add]
  case carry =>
    rw [addN_carry x y n (Nat.le_refl n), BitVec.carry, decide_eq_true_iff, Nat.mod_eq_of_lt x.isLt,
      Nat.mod_eq_of_lt y.isLt, Bool.toNat_false, Nat.add_zero, uint_eq_toNat, uint_eq_toNat]
  case signed => rw [signedAddOverflow_addN, saddOverflow_iff_sint]

/-! ### The overflow flags of SUB -/

/-- The inverted carry out, off the subtrahend 0x0000, is the library's borrow. -/
theorem subOverflowU_subtract (a b : Word) : subOverflowU b (subtract a b) = a.usubOverflow b := by
  rw [subOverflowU, BitVec.usubOverflow]
  by_cases h : b = 0x0000#16
  · subst h
    exact (decide_eq_false (Nat.not_lt_zero _)).symm
  · rw [bne_iff_ne.2 h, subtract_carry a b h, Bool.true_and, ← decide_not, decide_eq_decide, Nat.not_le]

/-- The change of sign is the library's signed overflow of a subtraction. -/
theorem subOverflowS_subtract (a b : Word) : subOverflowS a b (a - b) = a.ssubOverflow b := by
  rw [subOverflowS, sign_eq_msb, sign_eq_msb, sign_eq_msb, BitVec.ssubOverflow_eq]
  cases a.msb <;> cases b.msb <;> cases (a - b).msb <;> rfl

theorem usubOverflow_iff (a b : Word) : a.usubOverflow b = true ↔ a.toNat < b.toNat := decide_eq_true_iff

/-- A signed difference wraps exactly when it leaves the range of a Word. -/
theorem ssubOverflow_iff (a b : Word) :
    a.ssubOverflow b = true ↔ (a.toInt - b.toInt < -32768 ∨ 32767 < a.toInt - b.toInt) := by
  rw [BitVec.ssubOverflow, Bool.or_eq_true, decide_eq_true_iff, decide_eq_true_iff]
  omega

/-! ### What SUB delivers -/

theorem exec_subU (a b : Word) (s : State) :
    exec (.subU a b) s = .next (s.deliver (.addition ⟨a - b, a.usubOverflow b⟩)) := by
  rw [← subtract_sum, ← subOverflowU_subtract]
  rfl

theorem exec_subS (a b : Word) (s : State) :
    exec (.subS a b) s = .next (s.deliver (.addition ⟨a - b, a.ssubOverflow b⟩)) := by
  rw [← subOverflowS_subtract, ← subtract_sum]
  rfl

/-- Settles O26: the flag is the library's borrow, and the difference is taken modulo 2^16. -/
theorem subUnsigned : Obligations.SubUnsigned := by
  intro a b s
  refine ⟨decode_writtenWord _ a b, ⟨_, exec_subU a b s, (subtract_sum a b).symm, (subOverflowU_subtract a b).symm,
    ?diff, ?borrow⟩, ?self, ?sub_zero, ?_, ?_, ?_⟩
  case diff =>
    have ha := a.isLt
    have hb := b.isLt
    rw [uint_eq_toNat, uint_eq_toNat, uint_eq_toNat, BitVec.toNat_sub]
    omega
  case borrow => rw [uint_eq_toNat, uint_eq_toNat, usubOverflow_iff]
  case self => rw [exec_subU, BitVec.sub_self, Bool.eq_false_iff.2 fun h => Nat.lt_irrefl _ ((usubOverflow_iff a a).1 h)]
  case sub_zero =>
    rw [exec_subU, BitVec.sub_zero, Bool.eq_false_iff.2 fun h => Nat.not_lt_zero _ ((usubOverflow_iff a _).1 h)]
  all_goals exact exec_subU _ _ s

theorem ofInt_sub_toInt (a b : Word) : BitVec.ofInt 16 (a.toInt - b.toInt) = a - b := by
  rw [Int.sub_eq_add_neg, BitVec.ofInt_add, BitVec.ofInt_neg, BitVec.ofInt_toInt, BitVec.ofInt_toInt,
    BitVec.sub_eq_add_neg]

/-- Settles O27: the flag is the library's signed overflow. -/
theorem subSigned : Obligations.SubSigned := by
  intro a b s
  refine ⟨decode_writtenWord _ a b, ⟨_, exec_subS a b s, (subtract_sum a b).symm, (subOverflowS_subtract a b).symm,
    ?diff, ?range⟩, ?self, ?_, ?_, ?_, ?_⟩
  case diff => rw [sint_eq_toInt, sint_eq_toInt, ofInt_sub_toInt]
  case range => rw [sint_eq_toInt, sint_eq_toInt, ssubOverflow_iff]
  case self =>
    have hov : a.ssubOverflow a = false := by
      rw [Bool.eq_false_iff, ne_eq, ssubOverflow_iff]
      omega
    rw [exec_subS, BitVec.sub_self, hov]
  all_goals exact exec_subS _ _ s

/-- Settles O28: the sums and differences are taken modulo 2^16. -/
theorem subtractionUndoesAddition : Obligations.SubtractionUndoesAddition := fun a b s =>
  ⟨⟨_, _, exec_addU a b s, exec_subU (a + b) b s, BitVec.add_sub_cancel a b⟩,
    ⟨_, _, exec_addS a b s, exec_subS (a + b) b s, BitVec.add_sub_cancel a b⟩⟩

/-! ### The literal carry tests -/

/-- The carry test on the add of A and the negation of B is the library's signed overflow of that add. -/
theorem subSCarryReading_subtract (a b : Word) : subSCarryReading (subtract a b) = a.saddOverflow (-b) := by
  rw [← negate_eq, ← signedAddOverflow_addN]
  rfl

/-- The carry test sees the exact difference where −sint(B) is the value of the negation. -/
theorem saddOverflow_neg {b : Word} (h : b ≠ 0x8000#16) (a : Word) : a.saddOverflow (-b) = a.ssubOverflow b := by
  rw [BitVec.saddOverflow, BitVec.ssubOverflow, toInt_neg_of_ne_0x8000 h, Int.sub_eq_add_neg]

/-- Subtracting −32768 overflows exactly for a minuend that is not negative. -/
theorem ssubOverflow_0x8000 (a : Word) : a.ssubOverflow 0x8000#16 = !sign a := by
  have hb : (0x8000#16).toInt = -32768 := by decide
  obtain ⟨hmin, hmax⟩ := toInt_bounds a
  rw [Bool.eq_iff_iff, ssubOverflow_iff, Bool.not_eq_true', sign_eq_false_iff, hb]
  omega

/-- Adding −32768 overflows exactly for a negative augend. -/
theorem saddOverflow_0x8000 (a : Word) : a.saddOverflow 0x8000#16 = sign a := by
  have hb : (0x8000#16).toInt = -32768 := by decide
  obtain ⟨hmin, hmax⟩ := toInt_bounds a
  rw [Bool.eq_iff_iff, saddOverflow_iff_sint, sign_eq_true_iff, sint_eq_toInt, sint_eq_toInt, hb]
  omega

/-- Settles O29: for SUB.S the carry test is the signed overflow of A plus the negation of B, and 0x8000 is its own
negation. -/
theorem literalCarryTestsOfSubtraction : Obligations.LiteralCarryTestsOfSubtraction := by
  intro a b
  refine ⟨?unsigned, ?signed, ?exception⟩
  case unsigned =>
    intro h
    rw [subUCarryReading, subOverflowU, bne_iff_ne.2 h, Bool.true_and, Bool.not_not]
  case signed =>
    intro h
    rw [subSCarryReading_subtract, saddOverflow_neg h, subtract_sum, subOverflowS_subtract]
  case exception =>
    rintro rfl
    rw [subSCarryReading_subtract, subtract_sum, subOverflowS_subtract, ssubOverflow_0x8000, Bool.not_not]
    exact ⟨rfl, saddOverflow_0x8000 a⟩

/-! ### NEG as SUB from 0x0000 -/

/-- Subtracting from 0x0000 borrows exactly for a subtrahend above 0. -/
theorem zero_usubOverflow (a : Word) : BitVec.usubOverflow 0x0000#16 a = (a != 0x0000#16) := by
  rw [Bool.eq_iff_iff, usubOverflow_iff, bne_iff_ne]
  exact BitVec.pos_iff_ne_zero a

/-- −sint(A) leaves the range of a Word exactly for 0x8000. -/
theorem neg_toInt_out_of_range_iff (a : Word) : (-a.toInt < -32768 ∨ 32767 < -a.toInt) ↔ a = 0x8000#16 := by
  obtain ⟨hmin, hmax⟩ := toInt_bounds a
  rw [eq_0x8000_iff_toInt]
  omega

theorem zero_ssubOverflow (a : Word) : BitVec.ssubOverflow 0x0000#16 a = (a == 0x8000#16) := by
  rw [Bool.eq_iff_iff, ssubOverflow_iff, beq_iff_eq, BitVec.toInt_zero, Int.zero_sub, neg_toInt_out_of_range_iff]

/-- Settles O20: the negation is the library's, and the flag is the borrow of subtracting from 0x0000. -/
theorem negUnsigned : Obligations.NegUnsigned := by
  intro a b s
  refine ⟨decode_writtenWord _ a b, ⟨_, exec_negU a b s, (negate_eq a).symm, ?value, ?positive⟩, ?sub, ?_, ?_, ?_, ?_⟩
  case value =>
    rw [← negate_eq]
    exact uint_negate a
  case positive => rw [← zero_usubOverflow, usubOverflow_iff, uint_eq_toNat, BitVec.toNat_zero]
  case sub => rw [exec_negU, exec_subU, BitVec.zero_sub, zero_usubOverflow]
  all_goals exact exec_negU _ b s

/-- Settles O21: the negation is the library's, and the flag is the signed overflow of subtracting from 0x0000. -/
theorem negSigned : Obligations.NegSigned := by
  intro a b s
  refine ⟨decode_writtenWord _ a b, ⟨_, exec_negS a b s, (negate_eq a).symm, ?value, ?range, beq_iff_eq⟩, ?sub,
    ?_, ?_, ?_, ?_, ?_⟩
  case value => rw [sint_eq_toInt, sint_eq_toInt]; exact toInt_neg_of_ne_0x8000
  case range => rw [sint_eq_toInt, neg_toInt_out_of_range_iff, beq_iff_eq]
  case sub => rw [exec_negS, exec_subS, BitVec.zero_sub, zero_ssubOverflow]
  all_goals exact exec_negS _ b s

end Sys2Proof.Machine
end

section
/-! Proofs about MUL (42_multiplier.md): the shift-and-add loop computes the exact product of the magnitudes without a carry
out, and the full product, its low half and the flags are the library's. -/

namespace Sys2Proof.Machine

/-! ### The shift-and-add loop -/

theorem toNat_shiftedMultiplicand (ma : Word) {i : Nat} (h : i < 16) :
    (shiftedMultiplicand ma i).toNat = ma.toNat * 2 ^ i := by
  have hpow : 2 ^ i ≤ 2 ^ 15 := Nat.pow_le_pow_right (by decide) (by omega)
  have hlt : ma.toNat * 2 ^ i < 2 ^ 32 := by
    calc ma.toNat * 2 ^ i ≤ 2 ^ 16 * 2 ^ 15 := Nat.mul_le_mul ma.isLt.le hpow
      _ < 2 ^ 32 := by decide
  rw [shiftedMultiplicand, BitVec.toNat_shiftLeft, BitVec.toNat_setWidth_of_le (by decide), Nat.shiftLeft_eq,
    Nat.mod_eq_of_lt hlt]

/-- What the accumulator stands for after `k` steps: the product by the first `k` bits of the multiplier. -/
def AccumulatorInvariant (ma mb : Word) (acc : DoubleWord) (k : Nat) : Prop := acc.toNat = ma.toNat * (mb.toNat % 2 ^ k)

/-- The add of step `k` stays below 2^32, by the invariant. -/
theorem AccumulatorInvariant.add_lt {ma mb : Word} {acc : DoubleWord} {k : Nat} (h : AccumulatorInvariant ma mb acc k)
    (hk : k < 16) : acc.toNat + (shiftedMultiplicand ma k).toNat < 2 ^ 32 := by
  have hpow : 2 ^ k ≤ 2 ^ 15 := Nat.pow_le_pow_right (by decide) (by omega)
  have hmod : mb.toNat % 2 ^ k < 2 ^ k := Nat.mod_lt _ (Nat.two_pow_pos k)
  rw [h, toNat_shiftedMultiplicand ma hk, ← Nat.mul_add]
  calc ma.toNat * (mb.toNat % 2 ^ k + 2 ^ k) ≤ 65535 * 2 ^ 16 := Nat.mul_le_mul (by omega) (by omega)
    _ < 2 ^ 32 := by decide

theorem AccumulatorInvariant.step {ma mb : Word} {acc : DoubleWord} {k : Nat} (h : AccumulatorInvariant ma mb acc k)
    (hk : k < 16) : AccumulatorInvariant ma mb (accumulateStep ma mb acc k) (k + 1) := by
  have hbit : mb.toNat % 2 ^ (k + 1) = mb.toNat % 2 ^ k + 2 ^ k * (mb.getLsbD k).toNat := by
    rw [BitVec.getLsbD, Nat.toNat_testBit, Nat.mod_pow_succ]
  rw [AccumulatorInvariant, hbit, accumulateStep]
  cases mb.getLsbD k with
  | false => rwa [if_neg Bool.false_ne_true, Bool.toNat_false, Nat.mul_zero, Nat.add_zero]
  | true =>
    rw [if_pos rfl, accumulatorAdd, addN_sum, BitVec.toNat_add, Nat.mod_eq_of_lt (h.add_lt hk), h,
      toNat_shiftedMultiplicand ma hk, Bool.toNat_true, Nat.mul_one, Nat.mul_add]

theorem accumulate_invariant (ma mb : Word) {k : Nat} (hk : k ≤ 16) :
    AccumulatorInvariant ma mb (accumulate ma mb k) k := by
  induction k with
  | zero =>
    rw [AccumulatorInvariant, pow_zero, Nat.mod_one]
    rfl
  | succ k ih => exact (ih (Nat.le_of_succ_le hk)).step hk

theorem toNat_magnitudeProduct (ma mb : Word) : (magnitudeProduct ma mb).toNat = ma.toNat * mb.toNat := by
  have h : AccumulatorInvariant ma mb (magnitudeProduct ma mb) 16 := accumulate_invariant ma mb (Nat.le_refl 16)
  rw [h, Nat.mod_eq_of_lt mb.isLt]

theorem abs_toNat_le (w : Word) : w.abs.toNat ≤ 2 ^ 15 := by
  obtain ⟨hmin, hmax⟩ := toInt_bounds w
  rw [toNat_abs_eq_natAbs]
  omega

/-- Settles O30: the accumulator stands for a product that every step keeps below 2^32. -/
theorem accumulatorNeverOverflows : Obligations.AccumulatorNeverOverflows := by
  refine ⟨fun ma mb i hi => ?carry, fun ma mb => ?product, fun a b => ?bound⟩
  case carry =>
    rw [accumulatorAdd, addN_carry _ _ 32 (Nat.le_refl 32), BitVec.carry, decide_eq_false_iff_not,
      Nat.mod_eq_of_lt (BitVec.isLt _), Nat.mod_eq_of_lt (BitVec.isLt _), Bool.toNat_false, Nat.add_zero, Nat.not_le]
    exact (accumulate_invariant ma mb hi.le).add_lt hi
  case product => rw [uint_eq_toNat, uint_eq_toNat, uint_eq_toNat, toNat_magnitudeProduct]
  case bound =>
    rw [uint_eq_toNat, toNat_magnitudeProduct, mag_signed, mag_signed]
    calc a.abs.toNat * b.abs.toNat ≤ 2 ^ 15 * 2 ^ 15 := Nat.mul_le_mul (abs_toNat_le a) (abs_toNat_le b)
      _ = 2 ^ 30 := by decide

/-! ### The full product -/

theorem magnitudeProduct_eq (ma mb : Word) : magnitudeProduct ma mb = BitVec.ofNat 32 (ma.toNat * mb.toNat) := by
  rw [← toNat_magnitudeProduct, BitVec.ofNat_toNat, BitVec.setWidth_eq]

theorem fullProduct_unsigned_eq_magnitudeProduct (a b : Word) : fullProduct .unsigned a b = magnitudeProduct a b := by
  rw [fullProduct, mag_unsigned, mag_unsigned, recordedSign_unsigned, recordedSign_unsigned]
  rfl

theorem fullProduct_unsigned (a b : Word) : fullProduct .unsigned a b = BitVec.ofNat 32 (a.toNat * b.toNat) := by
  rw [fullProduct_unsigned_eq_magnitudeProduct, magnitudeProduct_eq]

/-- The signed value of a Word, at any width, is its magnitude with its sign put back. -/
theorem ofInt_toInt_eq_applySign (n : Nat) (w : Word) :
    BitVec.ofInt n w.toInt = applySign (sign w) (BitVec.ofNat n w.abs.toNat) := by
  rw [toNat_abs_eq_natAbs, ← BitVec.ofInt_natCast]
  cases h : sign w with
  | false => rw [applySign_false, Int.natAbs_of_nonneg ((sign_eq_false_iff w).1 h)]
  | true =>
    rw [applySign_true, negate_eq, ← BitVec.ofInt_neg, Int.ofNat_natAbs_of_nonpos ((sign_eq_true_iff w).1 h).le,
      Int.neg_neg]

/-- Two signs put back on two factors are one sign put back on the product (42_multiplier.md R81). -/
theorem applySign_mul {n : Nat} (s t : Bool) (x y : BitVec n) :
    applySign s x * applySign t y = applySign (s ^^ t) (x * y) := by
  cases s <;> cases t <;>
    simp only [applySign_true, applySign_false, negate_eq, BitVec.neg_mul, BitVec.mul_neg, BitVec.neg_neg, Bool.xor_true,
      Bool.xor_false, Bool.not_true, Bool.not_false]

theorem fullProduct_signed (a b : Word) : fullProduct .signed a b = BitVec.ofInt 32 (a.toInt * b.toInt) := by
  rw [fullProduct, mag_signed, mag_signed, recordedSign_signed, recordedSign_signed, magnitudeProduct_eq, BitVec.ofNat_mul,
    BitVec.ofInt_mul, ofInt_toInt_eq_applySign, ofInt_toInt_eq_applySign, applySign_mul]

/-- The exact signed product lies well inside 32 bits (42_multiplier.md R80). -/
theorem toInt_mul_toInt_bounds (a b : Word) : -2 ^ 30 ≤ a.toInt * b.toInt ∧ a.toInt * b.toInt ≤ 2 ^ 30 :=
  ⟨BitVec.le_toInt_mul_toInt, BitVec.toInt_mul_toInt_le⟩

theorem toInt_fullProduct_signed (a b : Word) : (fullProduct .signed a b).toInt = a.toInt * b.toInt := by
  obtain ⟨hmin, hmax⟩ := toInt_mul_toInt_bounds a b
  rw [fullProduct_signed]
  exact BitVec.toInt_ofInt_eq_self (by decide) (by omega) (by omega)

/-! ### The low half -/

/-- The low half of the full product is the library's product in either mode. -/
theorem fullProduct_low (m : Mode) (a b : Word) : (fullProduct m a b).extractLsb' 0 16 = a * b := by
  rw [← BitVec.setWidth_eq_extractLsb' (by decide)]
  cases m with
  | unsigned =>
    rw [fullProduct_unsigned, BitVec.setWidth_ofNat_of_le (by decide), BitVec.ofNat_mul, BitVec.ofNat_toNat,
      BitVec.ofNat_toNat, BitVec.setWidth_eq, BitVec.setWidth_eq]
  | signed =>
    rw [← BitVec.signExtend_eq_setWidth_of_le _ (by decide), BitVec.signExtend, toInt_fullProduct_signed, BitVec.ofInt_mul,
      BitVec.ofInt_toInt, BitVec.ofInt_toInt]

end Sys2Proof.Machine
end

section
/-! Proofs about the flags and the records of MUL (42_multiplier.md §2). -/

namespace Sys2Proof.Machine

/-! ### The overflow flags of a full product -/

theorem mulOverflowU_iff (p : DoubleWord) : mulOverflowU p = true ↔ 65536 ≤ p.toNat := by
  have hlt := p.isLt
  rw [mulOverflowU, bne_iff_ne, ne_eq, ← BitVec.toNat_inj, BitVec.extractLsb'_toNat, Nat.shiftRight_eq_div_pow,
    BitVec.toNat_zero]
  omega

theorem mulOverflowS_eq_false_iff (p : DoubleWord) :
    mulOverflowS p = false ↔ p.extractLsb' 15 17 = 0#17 ∨ p.extractLsb' 15 17 = BitVec.allOnes 17 := by
  rw [mulOverflowS, Bool.not_eq_false', Bool.or_eq_true, beq_iff_eq, beq_iff_eq]

theorem mulOverflowS_iff (p : DoubleWord) : mulOverflowS p = true ↔ (p.toInt < -32768 ∨ 32767 < p.toInt) := by
  have hlt := p.isLt
  have hbits : mulOverflowS p = false ↔ p.toNat < 2 ^ 15 ∨ 2 ^ 32 - 2 ^ 15 ≤ p.toNat := by
    rw [mulOverflowS_eq_false_iff, ← BitVec.toNat_inj, ← BitVec.toNat_inj, BitVec.extractLsb'_toNat,
      Nat.shiftRight_eq_div_pow, BitVec.toNat_zero, BitVec.toNat_allOnes]
    omega
  rw [← Bool.not_eq_false, hbits, BitVec.toInt_eq_toNat_cond]
  split <;> omega

/-- All bits of a vector are the same. -/
theorem eq_zero_or_eq_allOnes_iff {n : Nat} (x : BitVec n) :
    (x = 0#n ∨ x = BitVec.allOnes n) ↔ ∀ k, k < n → x.getLsbD k = x.getLsbD 0 := by
  constructor
  · rintro (rfl | rfl) k hk
    · rw [BitVec.getLsbD_zero, BitVec.getLsbD_zero]
    · rw [BitVec.getLsbD_allOnes, BitVec.getLsbD_allOnes, decide_eq_true hk, decide_eq_true (Nat.zero_lt_of_lt hk)]
  · intro h
    cases h0 : x.getLsbD 0 with
    | false => exact .inl (BitVec.eq_of_getLsbD_eq fun k hk => by rw [h k hk, h0, BitVec.getLsbD_zero])
    | true =>
      exact .inr (BitVec.eq_of_getLsbD_eq fun k hk => by rw [h k hk, h0, BitVec.getLsbD_allOnes, decide_eq_true hk])

/-- The flag of MUL.S, by the bits 31 to 15 that it reads (42_multiplier.md R83). -/
theorem mulOverflowS_iff_bits (p : DoubleWord) :
    mulOverflowS p = true ↔ ¬ ∀ k, 15 ≤ k → k ≤ 31 → p.getLsbD k = (p.extractLsb' 0 16).getLsbD 15 := by
  have hbit : ∀ {k}, k < 17 → (p.extractLsb' 15 17).getLsbD k = p.getLsbD (15 + k) := fun hk => by
    rw [BitVec.getLsbD_extractLsb', decide_eq_true hk, Bool.true_and]
  have hlow : (p.extractLsb' 0 16).getLsbD 15 = p.getLsbD 15 := BitVec.getLsbD_extractLsb' ..
  rw [← Bool.not_eq_false, mulOverflowS_eq_false_iff, eq_zero_or_eq_allOnes_iff, hlow, hbit (by decide)]
  refine not_congr ⟨fun h k h15 h31 => ?_, fun h k hk => ?_⟩
  · have := h (k - 15) (by omega)
    rwa [hbit (by omega), Nat.add_sub_cancel' h15] at this
  · rw [hbit hk]
    exact h (15 + k) (by omega) (by omega)

theorem toNat_fullProduct_unsigned (a b : Word) : (fullProduct .unsigned a b).toNat = a.toNat * b.toNat := by
  rw [fullProduct_unsigned_eq_magnitudeProduct, toNat_magnitudeProduct]

theorem mulOverflowU_fullProduct (a b : Word) : mulOverflowU (fullProduct .unsigned a b) = a.umulOverflow b := by
  rw [Bool.eq_iff_iff, mulOverflowU_iff, toNat_fullProduct_unsigned, BitVec.umulOverflow, decide_eq_true_iff]

/-- A signed product wraps exactly when it leaves the range of a Word. -/
theorem smulOverflow_iff (a b : Word) :
    a.smulOverflow b = true ↔ (a.toInt * b.toInt < -32768 ∨ 32767 < a.toInt * b.toInt) := by
  rw [BitVec.smulOverflow, Bool.or_eq_true, decide_eq_true_iff, decide_eq_true_iff]
  omega

theorem mulOverflowS_fullProduct (a b : Word) : mulOverflowS (fullProduct .signed a b) = a.smulOverflow b := by
  rw [Bool.eq_iff_iff, mulOverflowS_iff, toInt_fullProduct_signed, smulOverflow_iff]

/-! ### What MUL delivers -/

theorem exec_mulU_fullProduct (a b : Word) (s : State) :
    exec (.mulU a b) s = .next (s.deliver (.multiplication ⟨(fullProduct .unsigned a b).extractLsb' 0 16,
      mulOverflowU (fullProduct .unsigned a b), fullProduct .unsigned a b⟩)) := rfl

theorem exec_mulS_fullProduct (a b : Word) (s : State) :
    exec (.mulS a b) s = .next (s.deliver (.multiplication ⟨(fullProduct .signed a b).extractLsb' 0 16,
      mulOverflowS (fullProduct .signed a b), fullProduct .signed a b⟩)) := rfl

theorem exec_mulU (a b : Word) (s : State) :
    exec (.mulU a b) s =
      .next (s.deliver (.multiplication ⟨a * b, a.umulOverflow b, BitVec.ofNat 32 (a.toNat * b.toNat)⟩)) := by
  rw [exec_mulU_fullProduct, fullProduct_low, mulOverflowU_fullProduct, fullProduct_unsigned]

theorem exec_mulS (a b : Word) (s : State) :
    exec (.mulS a b) s =
      .next (s.deliver (.multiplication ⟨a * b, a.smulOverflow b, BitVec.ofInt 32 (a.toInt * b.toInt)⟩)) := by
  rw [exec_mulS_fullProduct, fullProduct_low, mulOverflowS_fullProduct, fullProduct_signed]

theorem umulOverflow_comm (a b : Word) : a.umulOverflow b = b.umulOverflow a := by
  rw [BitVec.umulOverflow, BitVec.umulOverflow, Nat.mul_comm]

theorem smulOverflow_comm (a b : Word) : a.smulOverflow b = b.smulOverflow a := by
  rw [BitVec.smulOverflow, BitVec.smulOverflow, Int.mul_comm]

theorem exec_mulU_comm (a b : Word) (s : State) : exec (.mulU a b) s = exec (.mulU b a) s := by
  rw [exec_mulU, exec_mulU, BitVec.mul_comm, umulOverflow_comm, Nat.mul_comm]

theorem exec_mulS_comm (a b : Word) (s : State) : exec (.mulS a b) s = exec (.mulS b a) s := by
  rw [exec_mulS, exec_mulS, BitVec.mul_comm, smulOverflow_comm, Int.mul_comm]

theorem exec_mulU_zero (a : Word) (s : State) :
    exec (.mulU a 0x0000#16) s = .next (s.deliver (.multiplication ⟨0x0000#16, false, 0x00000000#32⟩)) := by
  rw [exec_mulU, BitVec.mul_zero, BitVec.umulOverflow, BitVec.toNat_zero, Nat.mul_zero]
  rfl

theorem exec_mulU_one (a : Word) (s : State) :
    exec (.mulU a 0x0001#16) s = .next (s.deliver (.multiplication ⟨a, false, a.setWidth 32⟩)) := by
  have hov : a.umulOverflow 0x0001#16 = false := decide_eq_false (Nat.not_le.2 ((Nat.mul_one _).symm ▸ a.isLt))
  have hone : (0x0001#16).toNat = 1 := rfl
  rw [exec_mulU, BitVec.mul_one, hov, hone, Nat.mul_one, BitVec.ofNat_toNat]

/-- Settles O31: the full product is the exact one, and its low half and flag are the library's. -/
theorem mulUnsigned : Obligations.MulUnsigned := by
  intro a b s
  refine ⟨decode_writtenWord _ a b, ⟨_, exec_mulU_fullProduct a b s, fullProduct_unsigned_eq_magnitudeProduct a b, rfl,
    bne_iff_ne, ?full, ?low, ?range⟩, exec_mulU_zero a s, ?zero_mul, exec_mulU_one a s, ?one_mul, ?_, ?_, ?_⟩
  case full => rw [uint_eq_toNat, uint_eq_toNat, uint_eq_toNat, toNat_fullProduct_unsigned]
  case low => rw [fullProduct_low, uint_eq_toNat, uint_eq_toNat, uint_eq_toNat, BitVec.toNat_mul]
  case range => rw [mulOverflowU_iff, toNat_fullProduct_unsigned, uint_eq_toNat, uint_eq_toNat]
  case zero_mul => rw [exec_mulU_comm, exec_mulU_zero]
  case one_mul => rw [exec_mulU_comm, exec_mulU_one]
  all_goals exact exec_mulU _ _ s

/-- Settles O32: the full product is the exact one, and its low half and flag are the library's. -/
theorem mulSigned : Obligations.MulSigned := by
  intro a b s
  refine ⟨decode_writtenWord _ a b, ⟨_, exec_mulS_fullProduct a b s, rfl, mulOverflowS_iff_bits _, ?full, ?range⟩,
    ?_, ?_, ?_, ?_, ?_, ?_, ?_, ?_⟩
  case full => rw [sint_eq_toInt, sint_eq_toInt, sint_eq_toInt, toInt_fullProduct_signed]
  case range => rw [mulOverflowS_iff, toInt_fullProduct_signed, sint_eq_toInt, sint_eq_toInt]
  all_goals exact exec_mulS _ _ s

/-- Settles O33: the product is the library's in both modes, and 0xFFFF by 0xFFFF is −1 by −1 in signed mode alone. -/
theorem multiplicationLaws : Obligations.MultiplicationLaws :=
  ⟨fun a b s => ⟨_, _, exec_mulU a b s, (exec_mulU_comm b a s).trans (exec_mulU a b s), exec_mulS a b s,
      (exec_mulS_comm b a s).trans (exec_mulS a b s), rfl⟩,
    0xFFFF#16, 0xFFFF#16, fun s => ⟨_, _, exec_mulU _ _ s, exec_mulS _ _ s, by decide, by decide⟩⟩

end Sys2Proof.Machine
end

section
/-! Proofs about the restoring divider (43_divider.md §1; 90_conflicts.md C8): its compare, its loop invariant, and its
result. -/

namespace Sys2Proof.Machine

theorem toNat_pos_of_ne_zero {d : Word} (h : d ≠ 0x0000#16) : 0 < d.toNat :=
  Nat.pos_of_ne_zero fun e => h (BitVec.eq_of_toNat_eq e)

/-! ### The compare -/

theorem borrowTest_ge {d : Word} (h : d ≠ 0x0000#16) (r : Word) : (borrowTest r d).ge = decide (d.toNat ≤ r.toNat) :=
  subtract_carry r d h

theorem borrowTest_diff (r d : Word) : (borrowTest r d).diff = r - d := subtract_sum r d

theorem toNat_borrowTest_diff {r d : Word} (h : d.toNat ≤ r.toNat) : (borrowTest r d).diff.toNat = r.toNat - d.toNat := by
  rw [borrowTest_diff, BitVec.toNat_sub_of_le h]

theorem signTestReading_ge (r d : Word) : (signTestReading r d).ge = !(r - d).msb := by
  rw [← subtract_sum, BitVec.msb_eq_getLsbD_last]
  rfl

/-- For a remainder below twice a divisor that is at most 0x8000, bit 15 of the difference tells a borrow. -/
theorem msb_sub_eq {r d : Word} (hd : d.toNat ≤ 0x8000) (hr : r.toNat < 2 * d.toNat) :
    (r - d).msb = decide (r.toNat < d.toNat) := by
  have hrlt := r.isLt
  rw [BitVec.msb_eq_decide, BitVec.toNat_sub, decide_eq_decide]
  omega

/-- Settles O36: the borrow is the comparison of the two values, and the two wrong divisions are computed. -/
theorem compareByTheBorrow : Obligations.CompareByTheBorrow := by
  refine ⟨fun r d hd => ⟨?ge, ?diff⟩, fun r d hd hle hlt => ?agree, by decide +kernel, by decide +kernel⟩
  case ge => rw [borrowTest_ge hd, decide_eq_true_iff, uint_eq_toNat, uint_eq_toNat]
  case diff =>
    rw [borrowTest_ge hd, decide_eq_true_iff, uint_eq_toNat, uint_eq_toNat, uint_eq_toNat]
    exact toNat_borrowTest_diff
  case agree =>
    rw [uint_eq_toNat] at hle
    rw [uint_eq_toNat, uint_eq_toNat] at hlt
    have hge : (signTestReading r d).ge = (borrowTest r d).ge := by
      rw [signTestReading_ge, borrowTest_ge hd, msb_sub_eq hle hlt, ← decide_not, decide_eq_decide, Nat.not_lt]
    rw [← show Comparison.mk (signTestReading r d).ge (borrowTest r d).diff = signTestReading r d from rfl, hge]

/-! ### The loop invariant -/

/-- Long division by one more bit, where the divisor goes into the remainder brought down. -/
theorem double_div_mod_of_le {q d b : Nat} (hb : b < 2) (h : d ≤ 2 * (q % d) + b) (hd : 0 < d) :
    (2 * q + b) / d = 2 * (q / d) + 1 ∧ (2 * q + b) % d = 2 * (q % d) + b - d := by
  have hmod := Nat.mod_lt q hd
  have hdiv := Nat.mod_add_div q d
  refine (Nat.div_mod_unique hd).2 ⟨?_, by omega⟩
  rw [Nat.mul_add, Nat.mul_left_comm, Nat.mul_one]
  omega

/-- Long division by one more bit, where the divisor does not go into the remainder brought down. -/
theorem double_div_mod_of_lt {q d b : Nat} (h : 2 * (q % d) + b < d) :
    (2 * q + b) / d = 2 * (q / d) ∧ (2 * q + b) % d = 2 * (q % d) + b := by
  have hdiv := Nat.mod_add_div q d
  refine (Nat.div_mod_unique (Nat.zero_lt_of_lt h)).2 ⟨?_, h⟩
  rw [Nat.mul_left_comm]
  omega

/-- What REM and QR hold while `i` dividend bits are still to be brought down (43_divider.md R88). -/
structure DividerInvariant (n d : Word) (g : DividerRegs) (i : Nat) : Prop where
  rem : g.rem.toNat = n.toNat / 2 ^ i % d.toNat
  qr : g.qr.toNat = n.toNat / 2 ^ i / d.toNat * 2 ^ i

/-- The running remainder before a shift. -/
theorem DividerInvariant.rem_lt {n d : Word} {g : DividerRegs} {i : Nat} (h : DividerInvariant n d g (i + 1)) :
    g.rem.toNat < 32768 := by
  have hn := n.isLt
  calc g.rem.toNat = n.toNat / 2 ^ (i + 1) % d.toNat := h.rem
    _ ≤ n.toNat / 2 ^ (i + 1) := Nat.mod_le _ _
    _ ≤ n.toNat / 2 ^ 1 := Nat.div_le_div_left (Nat.pow_le_pow_right (by decide) (by omega)) (by decide)
    _ < 32768 := by omega

/-- The first bits of the dividend, with one more of them. -/
theorem div_two_pow_eq_double_add (n : Word) (i : Nat) :
    n.toNat / 2 ^ i = 2 * (n.toNat / 2 ^ (i + 1)) + (n.getLsbD i).toNat := by
  rw [BitVec.getLsbD, Nat.toNat_testBit, Nat.pow_succ, ← Nat.div_div_eq_div_mul]
  omega

/-- Setting a quotient bit below those already set. -/
theorem toNat_or_one_shiftLeft {x : Word} {q i : Nat} (hx : x.toNat = q * 2 ^ (i + 1)) (hi : i < 16) :
    (x ||| 1#16 <<< i).toNat = (2 * q + 1) * 2 ^ i := by
  have hlt : 2 ^ i < 2 ^ (i + 1) := Nat.pow_lt_pow_right (by decide) (Nat.lt_succ_self i)
  have hpow : 2 ^ i < 2 ^ 16 := Nat.pow_lt_pow_right (by decide) hi
  have hone : (1#16 <<< i).toNat = 2 ^ i := by
    rw [BitVec.toNat_shiftLeft, Nat.shiftLeft_eq, BitVec.toNat_ofNat, Nat.one_mod, Nat.one_mul, Nat.mod_eq_of_lt hpow]
  rw [BitVec.toNat_or, hone, hx, ← Nat.shiftLeft_eq, ← Nat.shiftLeft_add_eq_or_of_lt hlt, Nat.shiftLeft_eq, Nat.pow_succ]
  ring

theorem DividerInvariant.step {n d : Word} {g : DividerRegs} {i : Nat} (h : DividerInvariant n d g (i + 1)) (hi : i < 16)
    (hd : d ≠ 0x0000#16) : DividerInvariant n d (restoringStep borrowTest n d g i) i := by
  have hdpos := toNat_pos_of_ne_zero hd
  have hbit : (n.getLsbD i).toNat < 2 := Bool.toNat_lt _
  have hshift := bringDown_toNat g.rem n i h.rem_lt
  rw [h.rem] at hshift
  rw [restoringStep, borrowTest_ge hd]
  by_cases hge : d.toNat ≤ (bringDown g.rem n i).toNat
  · obtain ⟨hdiv, hmod⟩ := double_div_mod_of_le hbit (hshift ▸ hge) hdpos
    simp only [decide_eq_true hge, if_true]
    constructor
    · rw [toNat_borrowTest_diff hge, hshift, div_two_pow_eq_double_add n i, hmod]
    · rw [toNat_or_one_shiftLeft h.qr hi, div_two_pow_eq_double_add n i, hdiv]
  · obtain ⟨hdiv, hmod⟩ := double_div_mod_of_lt (hshift ▸ Nat.lt_of_not_le hge)
    simp only [decide_eq_false hge, Bool.false_eq_true, if_false]
    constructor
    · rw [hshift, div_two_pow_eq_double_add n i, hmod]
    · rw [h.qr, div_two_pow_eq_double_add n i, hdiv, Nat.pow_succ]
      ring

theorem restoringLoop_invariant (n : Word) {d : Word} (hd : d ≠ 0x0000#16) {k : Nat} (hk : k ≤ 16) :
    DividerInvariant n d (restoringLoop borrowTest n d k) (16 - k) := by
  induction k with
  | zero =>
    have hzero : n.toNat / 2 ^ 16 = 0 := Nat.div_eq_of_lt n.isLt
    constructor
    · rw [Nat.sub_zero, hzero, Nat.zero_mod]
      rfl
    · rw [Nat.sub_zero, hzero, Nat.zero_div, Nat.zero_mul]
      rfl
  | succ k ih =>
    have hbefore := ih (Nat.le_of_succ_le hk)
    rw [show 16 - k = 15 - k + 1 by omega] at hbefore
    rw [restoringLoop_succ, show 16 - (k + 1) = 15 - k by omega]
    exact hbefore.step (by omega) hd

/-- The magnitude division is the library's unsigned division. -/
theorem restoring_eq (n : Word) {d : Word} (hd : d ≠ 0x0000#16) : restoring n d = { rem := n % d, qr := n / d } := by
  obtain ⟨hrem, hqr⟩ : DividerInvariant n d (restoring n d) 0 := restoringLoop_invariant n hd (Nat.le_refl 16)
  rw [pow_zero, Nat.div_one] at hrem hqr
  have h1 : (restoring n d).rem = n % d := BitVec.eq_of_toNat_eq (by rw [hrem, BitVec.toNat_umod])
  have h2 : (restoring n d).qr = n / d := BitVec.eq_of_toNat_eq (by rw [hqr, BitVec.toNat_udiv, Nat.mul_one])
  rw [← h1, ← h2]

/-- Settles O35, by the loop invariant. -/
theorem restoringDivisionInvariant : Obligations.RestoringDivisionInvariant := by
  intro n d hd
  have hdpos := toNat_pos_of_ne_zero hd
  refine ⟨fun k hk => ?invariant, fun k hk => ?shift, ?final⟩
  case invariant =>
    obtain ⟨hrem, hqr⟩ := restoringLoop_invariant n hd hk
    rw [uint_eq_toNat, uint_eq_toNat, uint_eq_toNat, uint_eq_toNat]
    exact ⟨hrem, hqr⟩
  case shift =>
    have hinv := restoringLoop_invariant n hd hk.le
    rw [show 16 - k = 15 - k + 1 by omega] at hinv
    rw [uint_eq_toNat]
    exact Nat.le_of_lt_succ hinv.rem_lt
  case final =>
    rw [restoring_eq n hd, uint_eq_toNat, uint_eq_toNat, BitVec.toNat_umod]
    exact Nat.mod_lt _ hdpos

end Sys2Proof.Machine
end

section
/-! Proofs about DIV (43_divider.md §2; 90_conflicts.md C4), about what every step keeps of the record, and about which
command reports which condition (60_exceptions.md §2). -/

namespace Sys2Proof.Machine

/-! ### What DIV delivers -/

theorem divideRecord_unsigned (a : Word) {b : Word} (h : b ≠ 0x0000#16) :
    divideRecord .unsigned a b = ⟨a / b, a % b, false, false⟩ := by
  rw [divideRecord, mag_unsigned, mag_unsigned, restoring_eq a h, recordedSign_unsigned, recordedSign_unsigned]
  rfl

theorem abs_ne_zero {b : Word} (h : b ≠ 0x0000#16) : b.abs ≠ 0x0000#16 := mt (abs_eq_zero_iff b).1 h

/-- The quotient of the magnitudes with the operands' signs put back is the library's signed quotient. -/
theorem applySign_div_abs (a b : Word) : applySign (sign a ^^ sign b) (a.abs / b.abs) = a.sdiv b := by
  rw [sign_eq_msb, sign_eq_msb, BitVec.abs_eq, BitVec.abs_eq, BitVec.sdiv_eq]
  cases a.msb <;> cases b.msb <;>
    simp only [Bool.xor_false, Bool.xor_true, Bool.not_true, Bool.not_false, applySign_true, applySign_false, negate_eq,
      if_true, Bool.false_eq_true, if_false, BitVec.udiv_eq]

/-- The remainder of the magnitudes with the dividend's sign put back is the library's signed remainder. -/
theorem applySign_mod_abs (a b : Word) : applySign (sign a) (a.abs % b.abs) = a.srem b := by
  rw [sign_eq_msb, BitVec.abs_eq, BitVec.abs_eq, BitVec.srem_eq]
  cases a.msb <;> cases b.msb <;>
    simp only [applySign_true, applySign_false, negate_eq, if_true, Bool.false_eq_true, if_false]

theorem divideRecord_signed (a : Word) {b : Word} (h : b ≠ 0x0000#16) :
    divideRecord .signed a b = ⟨a.sdiv b, a.srem b, false, a == 0x8000#16 && b == 0xFFFF#16⟩ := by
  rw [divideRecord, mag_signed, mag_signed, restoring_eq a.abs (abs_ne_zero h), recordedSign_signed, recordedSign_signed,
    applySign_div_abs, applySign_mod_abs]
  rfl

theorem exec_divU_of_ne_zero {b : Word} (h : b ≠ 0x0000#16) (a : Word) (s : State) :
    exec (.divU a b) s = .next (s.deliver (.division ⟨a / b, a % b, false, false⟩)) := by
  rw [exec_divU, divide_of_ne_zero h, divideRecord_unsigned a h]

theorem exec_divS_of_ne_zero {b : Word} (h : b ≠ 0x0000#16) (a : Word) (s : State) :
    exec (.divS a b) s =
      .next (s.deliver (.division ⟨a.sdiv b, a.srem b, false, a == 0x8000#16 && b == 0xFFFF#16⟩)) := by
  rw [exec_divS, divide_of_ne_zero h, divideRecord_signed a h]

theorem udiv_eq_zero_of_lt {a b : Word} (h : a.toNat < b.toNat) : a / b = 0x0000#16 :=
  BitVec.eq_of_toNat_eq (by rw [BitVec.toNat_udiv, Nat.div_eq_of_lt h, BitVec.toNat_zero])

/-- Settles O37: the quotient and the remainder are the library's. -/
theorem divUnsigned : Obligations.DivUnsigned := by
  intro a b s hb
  refine ⟨decode_writtenWord _ a b, ⟨_, exec_divU_of_ne_zero hb a s, ?quotient, ?remainder, rfl, rfl⟩, fun hlt => ?less,
    ?self, ?by_one, ?_, ?_, ?_, ?_⟩
  case quotient => rw [uint_eq_toNat, uint_eq_toNat, uint_eq_toNat, BitVec.toNat_udiv]
  case remainder => rw [uint_eq_toNat, uint_eq_toNat, uint_eq_toNat, BitVec.toNat_umod]
  case less =>
    rw [uint_eq_toNat, uint_eq_toNat] at hlt
    rw [exec_divU_of_ne_zero hb, udiv_eq_zero_of_lt hlt, BitVec.umod_eq_of_lt hlt]
  case self => rw [exec_divU_of_ne_zero hb, BitVec.udiv_self, if_neg (mt beq_iff_eq.1 hb), BitVec.umod_self]
  case by_one => rw [exec_divU_of_ne_zero (by decide), BitVec.udiv_one, BitVec.umod_one]
  all_goals exact exec_divU_of_ne_zero (by decide) _ s

theorem sdiv_eq_ofInt_tdiv (a b : Word) : a.sdiv b = BitVec.ofInt 16 (a.toInt.tdiv b.toInt) :=
  BitVec.eq_of_toInt_eq (by rw [BitVec.toInt_sdiv, BitVec.toInt_ofInt])

theorem toInt_srem_eq_sub (a b : Word) : (a.srem b).toInt = a.toInt - a.toInt.tdiv b.toInt * b.toInt := by
  rw [BitVec.toInt_srem, Int.tmod_def, Int.mul_comm]

/-- Settles O38: the quotient and the remainder are the library's, truncated toward zero. -/
theorem divSigned : Obligations.DivSigned := by
  intro a b s hb
  refine ⟨decode_writtenWord _ a b, ⟨_, exec_divS_of_ne_zero hb a s, ?quotient, ?remainder, rfl, ?overflow⟩,
    ?_, ?_, ?_, ?_, ?_, ?_, ?_, ?_, ?_⟩
  case quotient => rw [sint_eq_toInt, sint_eq_toInt, sdiv_eq_ofInt_tdiv]
  case remainder => rw [sint_eq_toInt, sint_eq_toInt, ← toInt_srem_eq_sub, BitVec.ofInt_toInt]
  case overflow => rw [Bool.and_eq_true, beq_iff_eq, beq_iff_eq]
  all_goals exact exec_divS_of_ne_zero (by decide) _ s

/-! ### The laws of division -/

/-- Off the one overflow, the library's signed quotient has the exact value. -/
theorem toInt_sdiv_of_not_overflow {a b : Word} (h : ¬ (a = 0x8000#16 ∧ b = 0xFFFF#16)) :
    (a.sdiv b).toInt = a.toInt.tdiv b.toInt :=
  BitVec.toInt_sdiv_of_ne_or_ne a b (not_and_or.1 h)

theorem toInt_ne_zero {b : Word} (h : b ≠ 0x0000#16) : b.toInt ≠ 0 := fun e => h (BitVec.eq_of_toInt_eq e)

/-- A truncated remainder is 0 or has the dividend's sign. -/
theorem tmod_eq_zero_or_neg_iff (x y : Int) : x.tmod y = 0 ∨ (x.tmod y < 0 ↔ x < 0) := by
  rcases Int.lt_or_le x 0 with hx | hx
  · have := Int.tmod_nonneg y (Int.neg_nonneg.2 hx.le)
    rw [Int.neg_tmod] at this
    omega
  · have := Int.tmod_nonneg y hx
    omega

/-- Settles O39: the laws are those of the library's two divisions, and the exception is one division. -/
theorem divisionLaws : Obligations.DivisionLaws := by
  intro a b s hb
  refine ⟨⟨_, exec_divU_of_ne_zero hb a s, ?unsigned, ?less⟩,
    ⟨_, exec_divS_of_ne_zero hb a s, fun h => ?signed, ?exception⟩⟩
  case unsigned =>
    rw [uint_eq_toNat, uint_eq_toNat, uint_eq_toNat, uint_eq_toNat, BitVec.toNat_udiv, BitVec.toNat_umod]
    exact Nat.div_add_mod' _ _
  case less =>
    rw [uint_eq_toNat, uint_eq_toNat, BitVec.toNat_umod]
    exact Nat.mod_lt _ (toNat_pos_of_ne_zero hb)
  case signed =>
    simp only [sint_eq_toInt, BitVec.toInt_srem, toInt_sdiv_of_not_overflow h]
    refine ⟨Int.tdiv_mul_add_tmod _ _, ?_, tmod_eq_zero_or_neg_iff _ _⟩
    rw [Int.natAbs_tmod]
    exact Nat.mod_lt _ (Int.natAbs_pos.2 (toInt_ne_zero hb))
  case exception =>
    rintro ⟨rfl, rfl⟩
    simp only [sint_eq_toInt]
    decide

theorem magnitudeRemainderReading_unsigned (a : Word) {b : Word} (h : b ≠ 0x0000#16) :
    magnitudeRemainderReading .unsigned a b = a % b := by
  rw [magnitudeRemainderReading, mag_unsigned, mag_unsigned, restoring_eq a h]

theorem magnitudeRemainderReading_signed (a : Word) {b : Word} (h : b ≠ 0x0000#16) :
    magnitudeRemainderReading .signed a b = a.abs % b.abs := by
  rw [magnitudeRemainderReading, mag_signed, mag_signed, restoring_eq a.abs (abs_ne_zero h)]

/-- Settles O40: the library's signed remainder is the magnitudes' with the dividend's sign. -/
theorem remainderHasTheDividendsSign : Obligations.RemainderHasTheDividendsSign := by
  refine ⟨fun a b s hb => ⟨⟨_, exec_divU_of_ne_zero hb a s, (magnitudeRemainderReading_unsigned a hb).symm⟩,
    ⟨_, exec_divS_of_ne_zero hb a s, ?_⟩⟩, magnitudeRemainderReading_signed _ (by decide)⟩
  rw [magnitudeRemainderReading_signed a hb]
  refine ⟨?magnitude, fun hpos => ?positive, fun hneg => ?negative⟩
  case magnitude =>
    rw [uint_eq_toNat, sint_eq_toInt, BitVec.toNat_umod, toNat_abs_eq_natAbs, toNat_abs_eq_natAbs, BitVec.toInt_srem,
      Int.natAbs_tmod]
  case positive => rw [← applySign_mod_abs, hpos, applySign_false]
  case negative => rw [← applySign_mod_abs, hneg, applySign_true]

/-! ### The record of every command is a record of the block -/

theorem mulOverflowU_eq_false_iff (p : DoubleWord) :
    mulOverflowU p = false ↔ p = (p.extractLsb' 0 16).setWidth 32 := by
  have hlt := p.isLt
  rw [← Bool.not_eq_true, mulOverflowU_iff, ← BitVec.toNat_inj, BitVec.toNat_setWidth, BitVec.extractLsb'_toNat,
    Nat.shiftRight_zero]
  omega

theorem mulOverflowS_eq_false_iff_signExtend (p : DoubleWord) :
    mulOverflowS p = false ↔ p = (p.extractLsb' 0 16).signExtend 32 := by
  have hlt := p.isLt
  rw [← Bool.not_eq_true, mulOverflowS_iff, ← BitVec.toInt_inj, BitVec.toInt_signExtend_of_le (by decide),
    BitVec.toInt_eq_toNat_cond, BitVec.toInt_eq_toNat_cond, BitVec.extractLsb'_toNat, Nat.shiftRight_zero]
  split <;> split <;> omega

theorem MultiplicationResult.consistent_iff (r : MultiplicationResult) :
    r.consistent = true ↔ r.product = r.fullProduct.extractLsb' 0 16 ∧
      if r.overflow then ¬ (r.fullProduct = r.product.setWidth 32 ∧ r.fullProduct = r.product.signExtend 32)
      else r.fullProduct = r.product.setWidth 32 ∨ r.fullProduct = r.product.signExtend 32 := by
  rw [MultiplicationResult.consistent, Bool.and_eq_true, beq_iff_eq]
  refine and_congr_right fun _ => ?_
  cases r.overflow with
  | false => simp only [Bool.false_eq_true, if_false, Bool.or_eq_true, beq_iff_eq]
  | true => simp only [if_true, Bool.not_eq_true', Bool.and_eq_false_iff, beq_eq_false_iff_ne, ne_eq, not_and_or]

/-- MUL.U reports overflow exactly when widening the product by zeros does not give the full product. -/
theorem consistent_of_mulOverflowU (p : DoubleWord) :
    MultiplicationResult.consistent ⟨p.extractLsb' 0 16, mulOverflowU p, p⟩ = true := by
  rw [MultiplicationResult.consistent_iff]
  refine ⟨rfl, ?_⟩
  split
  next hov => exact fun h => Bool.eq_false_iff.1 ((mulOverflowU_eq_false_iff p).2 h.1) hov
  next hov => exact .inl ((mulOverflowU_eq_false_iff p).1 (Bool.eq_false_iff.2 hov))

/-- MUL.S reports overflow exactly when widening the product by its sign does not give the full product. -/
theorem consistent_of_mulOverflowS (p : DoubleWord) :
    MultiplicationResult.consistent ⟨p.extractLsb' 0 16, mulOverflowS p, p⟩ = true := by
  rw [MultiplicationResult.consistent_iff]
  refine ⟨rfl, ?_⟩
  split
  next hov => exact fun h => Bool.eq_false_iff.1 ((mulOverflowS_eq_false_iff_signExtend p).2 h.2) hov
  next hov => exact .inr ((mulOverflowS_eq_false_iff_signExtend p).1 (Bool.eq_false_iff.2 hov))

theorem consistent_of_overflow_false {r : DivisionResult} (h : r.overflow = false) : r.consistent = true := by
  rw [DivisionResult.consistent, h, Bool.and_false]
  rfl

/-- The one overflow of DIV wraps to 0x8000 with no remainder (43_divider.md R91). -/
theorem divideRecord_consistent (m : Mode) (a : Word) {b : Word} (h : b ≠ 0x0000#16) :
    (divideRecord m a b).consistent = true := by
  cases m with
  | unsigned =>
    rw [divideRecord_unsigned a h]
    exact consistent_of_overflow_false rfl
  | signed =>
    rw [divideRecord_signed a h]
    by_cases hov : a = 0x8000#16 ∧ b = 0xFFFF#16
    · obtain ⟨rfl, rfl⟩ := hov
      decide
    · refine consistent_of_overflow_false (Bool.eq_false_iff.2 fun hflag => hov ?_)
      rwa [Bool.and_eq_true, beq_iff_eq, beq_iff_eq] at hflag

theorem recordConsistent_deliver (s : State) (r : Record) : (s.deliver r).recordConsistent = r.consistent := rfl

/-- Every meaning that answers a next state delivers a record of the block. -/
theorem exec_recordConsistent {i : Instr} {s t : State} (h : exec i s = .next t) : t.recordConsistent = true := by
  cases i with
  | mulU a b =>
    rw [complete_eq_next h, recordConsistent_deliver]
    exact consistent_of_mulOverflowU _
  | mulS a b =>
    rw [complete_eq_next h, recordConsistent_deliver]
    exact consistent_of_mulOverflowS _
  | divU a b | divS a b =>
    simp only [exec_divU, exec_divS] at h
    rcases divide_cases _ a b s with ⟨-, hd⟩ | ⟨hb, hd⟩ <;> rw [hd] at h <;> cases h
    · rfl
    · exact (recordConsistent_deliver _ _).trans (divideRecord_consistent _ a hb)
  | reservedOp101 | reservedOp110 | reservedOp111 => cases h
  | _ =>
    rw [complete_eq_next h, recordConsistent_deliver]
    rfl

/-- Settles O45: a step keeps the record it found or delivers a record of the block. -/
theorem stepKeepsTheRecordConsistent : Obligations.StepKeepsTheRecordConsistent := by
  intro s t hs h
  rcases step_cases h with ⟨-, rfl⟩ | ⟨w, rest, -, hexec⟩
  · exact hs
  · exact exec_recordConsistent hexec

/-! ### Which command reports which condition -/

/-- The conditions of a division, whatever its mode. -/
theorem divide_conditions (m : Mode) (a b : Word) (s : State) :
    ∃ t r, divide m a b s = .next t ∧ t.record = some r ∧ (r.divisionByZero = true ↔ b = 0x0000#16) ∧
      ¬ (r.divisionByZero = true ∧ r.overflow = true) ∧ (m = .unsigned → r.overflow = false) := by
  by_cases hb : b = 0x0000#16
  · subst hb
    exact ⟨_, _, divide_zero m a s, rfl, iff_of_true rfl rfl, nofun, fun _ => rfl⟩
  · refine ⟨_, _, divide_of_ne_zero hb m a s, rfl, iff_of_false nofun hb, nofun, ?_⟩
    rintro rfl
    rfl

theorem drawsFreeValues_iff_of_div {i : Instr} (h : i.op = .div) : drawsFreeValues i = true ↔ i.b = 0x0000#16 :=
  (drawsFreeValues_iff i).trans (and_iff_right h)

/-- What the record of each command reports, and never reports. -/
theorem exec_conditions {i : Instr} (hw : i.WellFormed) (s : State) :
    ∃ t r, exec i s = .next t ∧ t.record = some r ∧ (r.divisionByZero = true ↔ drawsFreeValues i = true) ∧
      ¬ (r.divisionByZero = true ∧ r.overflow = true) ∧ (i.op = .div ∧ i.mode = .unsigned → r.overflow = false) := by
  cases i with
  | divU a b | divS a b =>
    obtain ⟨t, r, ht, hr, hzero, hboth, hov⟩ := divide_conditions _ a b s
    refine ⟨t, r, ht, hr, ?_, hboth, fun h => hov h.2⟩
    rwa [drawsFreeValues_iff_of_div (by rfl)]
  | reservedOp101 | reservedOp110 | reservedOp111 => cases hw
  | _ => exact ⟨_, _, rfl, rfl, iff_of_false nofun nofun, nofun, nofun⟩

/-- Settles O42: no division reports both conditions, and each of the other nine commands overflows for one pair of operands. -/
theorem reportedConditions : Obligations.ReportedConditions := by
  refine ⟨fun i s hw => exec_conditions hw s, fun op hop m hm => ?_⟩
  cases op with
  | neg =>
    cases m with
    | unsigned => exact ⟨0x0001#16, 0x0000#16, fun s => ⟨_, _, exec_negU _ _ s, rfl, by decide⟩⟩
    | signed => exact ⟨0x8000#16, 0x0000#16, fun s => ⟨_, _, exec_negS _ _ s, rfl, by decide⟩⟩
  | add =>
    cases m with
    | unsigned => exact ⟨0xFFFF#16, 0x0001#16, fun s => ⟨_, _, exec_addU _ _ s, rfl, by decide⟩⟩
    | signed => exact ⟨0x7FFF#16, 0x0001#16, fun s => ⟨_, _, exec_addS _ _ s, rfl, by decide⟩⟩
  | sub =>
    cases m with
    | unsigned => exact ⟨0x0000#16, 0x0001#16, fun s => ⟨_, _, exec_subU _ _ s, rfl, by decide⟩⟩
    | signed => exact ⟨0x8000#16, 0x0001#16, fun s => ⟨_, _, exec_subS _ _ s, rfl, by decide⟩⟩
  | mul =>
    cases m with
    | unsigned => exact ⟨0x0100#16, 0x0100#16, fun s => ⟨_, _, exec_mulU _ _ s, rfl, by decide⟩⟩
    | signed => exact ⟨0x8000#16, 0xFFFF#16, fun s => ⟨_, _, exec_mulS _ _ s, rfl, by decide⟩⟩
  | div =>
    cases m with
    | unsigned => exact absurd ⟨rfl, rfl⟩ hm
    | signed => exact ⟨0x8000#16, 0xFFFF#16, fun s => ⟨_, _, exec_divS_of_ne_zero (by decide) _ s, rfl, by decide⟩⟩
  | reserved101 | reserved110 | reserved111 => exact absurd hop (by decide)

end Sys2Proof.Machine
end

section
/-! Proofs about the work of a command (70_reset_and_hazards.md R112, R117): the counted datapath gives the record and the
loops of the datapath itself, and its counts are those of the spec's table. -/

namespace Sys2Proof.Machine

/-! ### Counting ones -/

theorem onesBelow_eq_length_filter {n : Nat} (v : BitVec n) (k : Nat) :
    onesBelow v k = ((List.range k).filter fun i => v.getLsbD i).length := by
  induction k with
  | zero => rfl
  | succ k ih =>
    rw [onesBelow, ih, List.range_succ, List.filter_append, List.length_append]
    cases h : v.getLsbD k <;> simp [h]

theorem popcount_le {n : Nat} (v : BitVec n) : popcount v ≤ n := by
  rw [popcount, onesBelow_eq_length_filter]
  exact (List.length_filter_le _ _).trans_eq List.length_range

/-! ### The counted loops -/

theorem counted_eq_of_value_of_work {α : Type} {x : Counted α} {v : α} {w : WorkCount} (hv : x.value = v) (hw : x.work = w) :
    x = { value := v, work := w } := by
  rw [← hv, ← hw]

@[simp] theorem countedAccumulate_value (ma mb : Word) (k : Nat) :
    (countedAccumulate ma mb k).value = accumulate ma mb k := by
  induction k with
  | zero => rfl
  | succ k ih => rw [countedAccumulate, andThen_value, iteration_value, countedAccumulateStep_value, ih, accumulate_succ]

@[simp] theorem countedAccumulate_work (ma mb : Word) (k : Nat) :
    (countedAccumulate ma mb k).work = ⟨0, onesBelow mb k, k⟩ := by
  induction k with
  | zero => rfl
  | succ k ih =>
    rw [countedAccumulate, andThen_work, iteration_work, countedAccumulateStep_work, ih]
    rfl

@[simp] theorem countedRestoringLoop_value (n d : Word) (k : Nat) :
    (countedRestoringLoop n d k).value = restoringLoop borrowTest n d k := by
  induction k with
  | zero => rfl
  | succ k ih =>
    rw [countedRestoringLoop, andThen_value, iteration_value, countedRestoringStep_value, ih, restoringLoop_succ]

@[simp] theorem countedRestoringLoop_work (n d : Word) (k : Nat) :
    (countedRestoringLoop n d k).work = ⟨2 * k, 0, k⟩ := by
  induction k with
  | zero => rfl
  | succ k ih =>
    rw [countedRestoringLoop, andThen_work, iteration_work, countedRestoringStep_work, ih]
    rfl

/-! ### The counted multiplication and division -/

theorem countedFullProduct_value (m : Mode) (a b : Word) : (countedFullProduct m a b).value = fullProduct m a b := by
  simp only [countedFullProduct, andThen_value, countedMag_value, countedAccumulate_value, countedSign32_value, fullProduct,
    magnitudeProduct]

theorem countedFullProduct_work (m : Mode) (a b : Word) :
    (countedFullProduct m a b).work = ⟨(recordedSign a m).toNat + (recordedSign b m).toNat,
      popcount (mag b m) + (recordedSign a m ^^ recordedSign b m).toNat, 16⟩ := by
  simp only [countedFullProduct, andThen_work, countedMag_work, countedMag_value, countedAccumulate_work,
    countedSign32_work, WorkCount.plus, popcount, Nat.zero_add, Nat.add_zero]

theorem countedQuotient_value (m : Mode) (a b : Word) : (countedQuotient m a b).value = divideRecord m a b := by
  simp only [countedQuotient, andThen_value, countedMag_value, countedRestoringLoop_value, countedSign16_value, free_value,
    divideRecord, restoring]

theorem countedQuotient_work (m : Mode) (a b : Word) :
    (countedQuotient m a b).work = ⟨32 + ((recordedSign a m).toNat + (recordedSign b m).toNat) +
      ((recordedSign a m ^^ recordedSign b m).toNat + (recordedSign a m).toNat), 0, 16⟩ := by
  simp only [countedQuotient, andThen_work, countedMag_work, countedRestoringLoop_work, countedSign16_work, free_work,
    WorkCount.plus, Config.divIterations, Nat.zero_add, Nat.add_zero, WorkCount.mk.injEq, and_true]
  omega

theorem countedDivide_zero (m : Mode) (a : Word) (n : Nat) :
    countedDivide m a 0x0000#16 n = .free (divisionByZeroRecord (Config.dzQuotient n m a) (Config.dzRemainder n m a)) :=
  if_pos rfl

theorem countedDivide_of_ne_zero (m : Mode) (a : Word) {b : Word} (h : b ≠ 0x0000#16) (n : Nat) :
    countedDivide m a b n = countedQuotient m a b :=
  if_neg h

/-! ### The work of each command -/

theorem work_mulU_eq (a b : Word) : work (.mulU a b) = some (countedFullProduct .unsigned a b).work := rfl

theorem work_mulS_eq (a b : Word) : work (.mulS a b) = some (countedFullProduct .signed a b).work := rfl

theorem work_divU_eq (a b : Word) : work (.divU a b) = some (countedDivide .unsigned a b 0).work := rfl

theorem work_divS_eq (a b : Word) : work (.divS a b) = some (countedDivide .signed a b 0).work := rfl

theorem work_mulU (a b : Word) : work (.mulU a b) = some ⟨0, popcount b, 16⟩ := by
  rw [work_mulU_eq, countedFullProduct_work, recordedSign_unsigned, recordedSign_unsigned, mag_unsigned]
  rfl

theorem work_mulS (a b : Word) :
    work (.mulS a b) = some ⟨(sign a).toNat + (sign b).toNat, popcount (mag b .signed) + (sign a ^^ sign b).toNat, 16⟩ := by
  rw [work_mulS_eq, countedFullProduct_work, recordedSign_signed, recordedSign_signed]

theorem work_divU (a : Word) {b : Word} (h : b ≠ 0x0000#16) : work (.divU a b) = some ⟨32, 0, 16⟩ := by
  rw [work_divU_eq, countedDivide_of_ne_zero _ a h, countedQuotient_work, recordedSign_unsigned, recordedSign_unsigned]
  rfl

theorem work_divS (a : Word) {b : Word} (h : b ≠ 0x0000#16) :
    work (.divS a b) =
      some ⟨32 + ((sign a).toNat + (sign b).toNat) + ((sign a ^^ sign b).toNat + (sign a).toNat), 0, 16⟩ := by
  rw [work_divS_eq, countedDivide_of_ne_zero _ a h, countedQuotient_work, recordedSign_signed, recordedSign_signed]

theorem work_divU_zero (a : Word) : work (.divU a 0x0000#16) = some ⟨0, 0, 0⟩ := by
  rw [work_divU_eq, countedDivide_zero, free_work]

theorem work_divS_zero (a : Word) : work (.divS a 0x0000#16) = some ⟨0, 0, 0⟩ := by
  rw [work_divS_eq, countedDivide_zero, free_work]

theorem work_isSome_iff (i : Instr) : (work i).isSome = true ↔ i.WellFormed := by
  cases i with
  | reservedOp101 | reservedOp110 | reservedOp111 => exact iff_of_false nofun nofun
  | _ => exact iff_of_true rfl rfl

/-- The counted division gives the record that DIV delivers, and its work is the same whichever draws are taken. -/
theorem divide_counted (m : Mode) (a b : Word) (s : State) :
    ∃ t, divide m a b s = .next t ∧ t.record = some (.division (countedDivide m a b s.drawIndex).value) ∧
      (countedDivide m a b 0).work = (countedDivide m a b s.drawIndex).work := by
  by_cases hb : b = 0x0000#16
  · subst hb
    exact ⟨_, divide_zero m a s, by rw [countedDivide_zero]; rfl, by rw [countedDivide_zero, countedDivide_zero]; rfl⟩
  · rw [countedDivide_of_ne_zero m a hb, countedDivide_of_ne_zero m a hb, countedQuotient_value]
    exact ⟨_, divide_of_ne_zero hb m a s, rfl, rfl⟩

/-- The counted computation of a command gives the record that the command delivers. -/
theorem exec_counted {i : Instr} (hw : i.WellFormed) (s : State) : ∃ t c, exec i s = .next t ∧
    countedRecord i s.drawIndex = some c ∧ t.record = some c.value ∧ work i = some c.work := by
  cases i with
  | mulU a b | mulS a b =>
    refine ⟨_, _, rfl, rfl, ?_, rfl⟩
    rw [andThen_value, countedFullProduct_value]
    rfl
  | divU a b | divS a b =>
    obtain ⟨t, ht, hr, hwork⟩ := divide_counted _ a b s
    exact ⟨t, _, ht, rfl, hr, congrArg some hwork⟩
  | reservedOp101 | reservedOp110 | reservedOp111 => cases hw
  | _ => exact ⟨_, _, rfl, rfl, rfl, rfl⟩

/-! ### The bounds -/

theorem work_mul_bounds {i : Instr} {c : WorkCount} (h : work i = some c) (hop : i.op = .mul) :
    c.adds16 ≤ 2 ∧ c.adds32 ≤ 16 + 1 ∧ c.iterations = 16 := by
  cases i with
  | mulU a b =>
    rw [work_mulU] at h
    cases h
    exact ⟨Nat.zero_le 2, (popcount_le b).trans (by decide), rfl⟩
  | mulS a b =>
    rw [work_mulS] at h
    cases h
    exact ⟨Nat.add_le_add (Bool.toNat_le _) (Bool.toNat_le _), Nat.add_le_add (popcount_le _) (Bool.toNat_le _), rfl⟩
  | _ => cases hop

theorem work_div_bounds {i : Instr} {c : WorkCount} (h : work i = some c) (hop : i.op = .div) :
    c.adds16 ≤ 16 * 2 + 4 ∧ c.adds32 = 0 ∧ c.iterations ≤ 16 := by
  cases i with
  | divU a b =>
    by_cases hb : b = 0x0000#16
    · rw [hb, work_divU_zero] at h
      cases h
      decide
    · rw [work_divU a hb] at h
      cases h
      decide
  | divS a b =>
    by_cases hb : b = 0x0000#16
    · rw [hb, work_divS_zero] at h
      cases h
      decide
    · rw [work_divS a hb] at h
      cases h
      have hsigns := Nat.add_le_add (Bool.toNat_le (sign a)) (Bool.toNat_le (sign b))
      have hback := Nat.add_le_add (Bool.toNat_le (sign a ^^ sign b)) (Bool.toNat_le (sign a))
      exact ⟨(Nat.add_le_add (Nat.add_le_add_left hsigns 32) hback).trans_eq rfl, rfl, Nat.le_refl 16⟩
  | _ => cases hop

/-- Settles O49: each count is that of the counted datapath, operation by operation. -/
theorem workIsBounded : Obligations.WorkIsBounded := by
  refine ⟨fun i s hw => exec_counted hw s, work_isSome_iff, fun ma mb k => ⟨?multiplier, ?add, ?skip⟩,
    fun n d k => ?divider, fun a b => ⟨rfl, rfl, rfl, rfl, rfl, rfl⟩, fun a b => ⟨work_mulU a b, work_mulS a b⟩,
    fun a b hb => ⟨work_divU a hb, work_divS a hb⟩, fun a => ⟨work_divU_zero a, work_divS_zero a⟩,
    fun v => ⟨onesBelow_eq_length_filter v 16, popcount_le v⟩, fun i c h => ⟨work_mul_bounds h, work_div_bounds h⟩⟩
  case multiplier =>
    rw [← onesBelow_eq_length_filter]
    exact counted_eq_of_value_of_work (countedAccumulate_value ma mb k) (countedAccumulate_work ma mb k)
  case add => exact fun h => by rw [accumulate_succ, accumulateStep, if_pos h]
  case skip => exact fun h => by rw [accumulate_succ, accumulateStep, h, if_neg Bool.false_ne_true]
  case divider => exact counted_eq_of_value_of_work (countedRestoringLoop_value n d k) (countedRestoringLoop_work n d k)

end Sys2Proof.Machine
end

section
/-! Proofs about assembly text (30_encoding.md R56, R57): the literals and their ranges, and the commands that a line
can give. -/

namespace Sys2Proof.Machine

/-! ### The commands that a line can give -/

theorem opName_of_readMnemonic {cs : List Char} {op : Op} {m : Mode} (h : readMnemonic cs = some (op, m)) :
    (opName op).isSome = true := by
  unfold readMnemonic at h
  split at h <;> cases h <;> rfl

/-- The form the assembler writes, by the fields of a command: an OP with a name, and no field B for a NEG. -/
theorem assemblerForm_iff (i : Instr) :
    i.assemblerForm = true ↔ (opName i.op).isSome = true ∧ (i.op = .neg → i.b = 0x0000#16) := by
  cases i with
  | negU a b | negS a b => exact beq_iff_eq.trans ⟨fun h => ⟨rfl, fun _ => h⟩, fun h => h.2 rfl⟩
  | reservedOp101 | reservedOp110 | reservedOp111 => exact iff_of_false nofun nofun
  | _ => exact iff_of_true rfl ⟨rfl, nofun⟩

/-- Settles O51: every mnemonic names an OP, and the assembler writes no field B for a NEG. -/
theorem assembledCommandsAreCommands : Obligations.AssembledCommandsAreCommands := by
  intro line i h
  obtain ⟨name, op, m, args, a, b, hname, hargs, rfl⟩ := assembleLine_eq_some h
  rw [assemblerForm_iff, ofFields_op, ofFields_b]
  refine ⟨opName_of_readMnemonic hname, ?_⟩
  rintro rfl
  exact oneOperand_b hargs

/-! ### Digits and numbers -/

/-- A character in upper or in lower case. -/
def cased (lower : Bool) (c : Char) : Char := if lower then c.toLower else c

theorem hexDigit_cased_hexChar : ∀ d < 16, ∀ lower : Bool, hexDigit (cased lower (hexChar d)) = some d := by
  decide

theorem decDigit_hexChar : ∀ d < 10, decDigit (hexChar d) = some d := by
  decide

/-- Characters that are the digits of some values stand for the number those values stand for. -/
theorem digitsFrom_map {α : Type} {digit : Char → Option Nat} {char : α → Char} {value : α → Nat} (base : Nat)
    {ds : List α} (h : ∀ d ∈ ds, digit (char d) = some (value d)) (acc : Nat) :
    digitsFrom digit base acc (ds.map char) = some (ds.foldl (fun v d => v * base + value d) acc) := by
  induction ds generalizing acc with
  | nil => rfl
  | cons d ds ih =>
    obtain ⟨hd, hds⟩ := List.forall_mem_cons.1 h
    rw [List.map_cons, digitsFrom, hd, List.foldl_cons]
    exact ih hds _

theorem number_map {α : Type} {digit : Char → Option Nat} {char : α → Char} {value : α → Nat} (base : Nat) {ds : List α}
    (hne : ds ≠ []) (h : ∀ d ∈ ds, digit (char d) = some (value d)) :
    number digit base (ds.map char) = some (ds.foldl (fun v d => v * base + value d) 0) := by
  obtain ⟨d, ds, rfl⟩ := List.exists_cons_of_ne_nil hne
  exact digitsFrom_map base h 0

/-! ### The three forms of literal -/

theorem hexLiteral_map_cased {ds : List (Nat × Bool)} (hne : ds ≠ []) (h : ∀ d ∈ ds, d.1 < 16) :
    hexLiteral (ds.map fun d => cased d.2 (hexChar d.1)) =
      if ds.length ≤ 4 then .ok (BitVec.ofNat 16 (ds.foldl (fun v d => v * 16 + d.1) 0)) else .error .outOfRange := by
  rw [hexLiteral, number_map 16 hne fun d hd => hexDigit_cased_hexChar d.1 (h d hd) d.2, List.length_map]

theorem number_map_hexChar {ds : List Nat} (hne : ds ≠ []) (h : ∀ d ∈ ds, d < 10) :
    number decDigit 10 (ds.map hexChar) = some (ds.foldl (fun v d => v * 10 + d) 0) :=
  number_map (value := id) 10 hne fun d hd => decDigit_hexChar d (h d hd)

/-- Decimal digits are none of the marks that the other forms of literal begin with. -/
theorem literal_of_decDigits {cs : List Char} (h : ∀ c ∈ cs, decDigit c ≠ none) (m : Mode) :
    literal m cs = decLiteral cs := by
  unfold literal
  split
  next => exact absurd (by decide) (h 'x' (List.mem_cons_of_mem _ List.mem_cons_self))
  next => exact absurd (by decide) (h '-' List.mem_cons_self)
  next => exact absurd (by decide) (h '−' List.mem_cons_self)
  next => rfl

theorem literal_minus {minus : Char} (h : minus = '-' ∨ minus = '−') (m : Mode) (cs : List Char) :
    literal m (minus :: cs) = negLiteral m cs := by
  rcases h with rfl | rfl <;> rfl

/-- The pattern 65536 + value of a negative value is its two's complement. -/
theorem ofNat_sub_eq_ofInt_neg {v : Nat} (h : v ≤ 65536) : BitVec.ofNat 16 (65536 - v) = BitVec.ofInt 16 (-(v : Int)) := by
  rw [← BitVec.ofInt_natCast, Int.ofNat_sub h, Int.sub_eq_add_neg, BitVec.ofInt_add]
  exact BitVec.zero_add _

/-- Settles O52: the digits of a literal stand for their number, and each form compares that number, or the count of its digits,
with its range. -/
theorem literalsAreNeverTruncated : Obligations.LiteralsAreNeverTruncated := by
  refine ⟨fun m ds hne h => hexLiteral_map_cased hne h, fun m ds hne h => ?decimal,
    fun minus ds hminus hne h => ⟨?signed, ?unsigned⟩⟩
  case decimal =>
    have hdigits : ∀ c ∈ ds.map hexChar, decDigit c ≠ none := List.forall_mem_map.2 fun d hd => by
      rw [decDigit_hexChar d (h d hd)]
      nofun
    rw [literal_of_decDigits hdigits, decLiteral, number_map_hexChar hne h]
  case signed =>
    rw [literal_minus hminus, negLiteral, number_map_hexChar hne h]
    refine if_ctx_congr Iff.rfl (fun hrange => ?_) fun _ => rfl
    rw [ofNat_sub_eq_ofInt_neg (by omega)]
  case unsigned => rw [literal_minus hminus, negLiteral, number_map_hexChar hne h]

end Sys2Proof.Machine
end

section
/-! Proofs about assembling what the disassembler prints (30_encoding.md §5): how a line is cut into its comment, its blanks, its
mnemonic and its operands, and what each of these is in a printed line. -/

namespace Sys2Proof.Machine

/-! ### Cutting a line -/

/-- The text begins and ends with a character that is no blank. -/
def NonblankEnds (cs : List Char) : Prop :=
  (∃ c, cs.head? = some c ∧ isBlank c = false) ∧ ∃ c, cs.getLast? = some c ∧ isBlank c = false

theorem NonblankEnds.append {xs ys : List Char} (hx : NonblankEnds xs) (hy : NonblankEnds ys) (mid : List Char) :
    NonblankEnds (xs ++ mid ++ ys) := by
  obtain ⟨⟨c, hc, hcb⟩, -⟩ := hx
  obtain ⟨-, d, hd, hdb⟩ := hy
  refine ⟨⟨c, ?_, hcb⟩, ⟨d, ?_, hdb⟩⟩
  · rw [List.append_assoc, List.head?_append, hc, Option.some_or]
  · rw [List.getLast?_append, hd, Option.some_or]

theorem dropWhile_isBlank_append {blanks cs : List Char} (hblanks : ∀ c ∈ blanks, isBlank c = true)
    (hcs : ∃ c, cs.head? = some c ∧ isBlank c = false) : (blanks ++ cs).dropWhile isBlank = cs := by
  obtain ⟨c, hc, hcb⟩ := hcs
  obtain ⟨cs, rfl⟩ := List.head?_eq_some_iff.1 hc
  rw [List.dropWhile_append_of_pos hblanks, List.dropWhile_cons_of_neg (by rw [hcb]; exact Bool.false_ne_true)]

theorem trim_append {before cs after : List Char} (hbefore : ∀ c ∈ before, isBlank c = true) (hcs : NonblankEnds cs)
    (hafter : ∀ c ∈ after, isBlank c = true) : trim (before ++ cs ++ after) = cs := by
  obtain ⟨⟨c, hc, hcb⟩, hlast⟩ := hcs
  rw [← List.head?_reverse] at hlast
  have hhead : (cs ++ after).head? = some c := by rw [List.head?_append, hc, Option.some_or]
  rw [trim, List.append_assoc, dropWhile_isBlank_append hbefore ⟨c, hhead, hcb⟩, List.reverse_append,
    dropWhile_isBlank_append (fun c h => hafter c (List.mem_reverse.1 h)) hlast, List.reverse_reverse]

theorem trim_blank_cons {cs : List Char} (h : NonblankEnds cs) : trim (' ' :: cs) = cs := by
  have htrim := trim_append (before := [' ']) (after := []) (List.forall_mem_singleton.2 rfl) h nofun
  rwa [List.append_nil] at htrim

theorem withoutComment_append {cs rest : List Char} (h : ∀ c ∈ cs, c ≠ ';') (hrest : rest = [] ∨ rest.head? = some ';') :
    withoutComment (cs ++ rest) = cs := by
  rw [withoutComment, List.takeWhile_append_of_pos fun c hc => bne_iff_ne.2 (h c hc)]
  rcases hrest with rfl | hrest
  · exact List.append_nil cs
  · obtain ⟨comment, rfl⟩ := List.head?_eq_some_iff.1 hrest
    exact List.append_nil cs

theorem commaParts_ne_nil (cs : List Char) : commaParts cs ≠ [] := by
  cases cs with
  | nil => exact List.cons_ne_nil _ _
  | cons c cs =>
    rw [commaParts]
    split
    · exact List.cons_ne_nil _ _
    · split <;> exact List.cons_ne_nil _ _

theorem commaParts_comma_cons (cs : List Char) : commaParts (',' :: cs) = [] :: commaParts cs := by
  obtain ⟨p, ps, h⟩ := List.exists_cons_of_ne_nil (commaParts_ne_nil cs)
  rw [commaParts, h]
  rfl

theorem commaParts_cons_of_ne {c : Char} (hc : c ≠ ',') {cs p : List Char} {ps : List (List Char)}
    (h : commaParts cs = p :: ps) : commaParts (c :: cs) = (c :: p) :: ps := by
  rw [commaParts, h]
  exact if_neg hc

theorem commaParts_append {part cs : List Char} (h : ∀ c ∈ part, c ≠ ',') {p : List Char} {ps : List (List Char)}
    (hcs : commaParts cs = p :: ps) : commaParts (part ++ cs) = (part ++ p) :: ps := by
  induction part with
  | nil => exact hcs
  | cons c part ih =>
    obtain ⟨hc, hpart⟩ := List.forall_mem_cons.1 h
    exact commaParts_cons_of_ne hc (ih hpart)

theorem commaParts_of_no_comma {part : List Char} (h : ∀ c ∈ part, c ≠ ',') : commaParts part = [part] := by
  have hparts := commaParts_append h (cs := []) rfl
  rwa [List.append_nil] at hparts

theorem commaParts_append_comma {part : List Char} (h : ∀ c ∈ part, c ≠ ',') (cs : List Char) :
    commaParts (part ++ ',' :: cs) = part :: commaParts cs := by
  rw [commaParts_append h (commaParts_comma_cons cs), List.append_nil]

/-- A line that is, but for its comment and the blanks around it, a mnemonic, one blank, and operands. -/
theorem assembleLine_of_parts {line name ops : List Char} {op : Op} {m : Mode} {a b : Word}
    (hline : trim (withoutComment line) = name ++ ' ' :: ops) (hname : ∀ c ∈ name, isBlank c = false)
    (hop : readMnemonic name = some (op, m)) (hops : readOperands op m ((commaParts (' ' :: ops)).map trim) = .ok (a, b)) :
    assembleLine line = .ok (some (Instr.ofFields op m a b)) := by
  have hnonblank : ∀ c ∈ name, (!isBlank c) = true := fun c hc => by rw [hname c hc]; rfl
  have htake : (name ++ ' ' :: ops).takeWhile (fun c => !isBlank c) = name := by
    rw [List.takeWhile_append_of_pos hnonblank]
    exact List.append_nil name
  have hdrop : (name ++ ' ' :: ops).dropWhile (fun c => !isBlank c) = ' ' :: ops := List.dropWhile_append_of_pos hnonblank
  have hempty : (name ++ ' ' :: ops).isEmpty = false := by rw [List.isEmpty_eq_false_iff]; simp
  simp only [assembleLine, hline, hempty, htake, hdrop, hop, hops, Bool.false_eq_true, if_false]

/-! ### The parts of a printed line -/

/-- The characters of a printed mnemonic or operand: no blank, no comma, no comment. -/
def isPlain (c : Char) : Bool := !isBlank c && c != ',' && c != ';'

theorem isPlain_iff (c : Char) : isPlain c = true ↔ isBlank c = false ∧ c ≠ ',' ∧ c ≠ ';' := by
  rw [isPlain, Bool.and_eq_true, Bool.and_eq_true, Bool.not_eq_true', bne_iff_ne, bne_iff_ne, and_assoc]

theorem nonblankEnds_of_isPlain {cs : List Char} (hne : cs ≠ []) (h : ∀ c ∈ cs, isPlain c = true) : NonblankEnds cs :=
  ⟨⟨_, List.head?_eq_some_head hne, ((isPlain_iff _).1 (h _ (List.head_mem hne))).1⟩,
    ⟨_, List.getLast?_eq_some_getLast hne, ((isPlain_iff _).1 (h _ (List.getLast_mem hne))).1⟩⟩

/-- The mnemonic of an operation with the name `name`, in upper or in lower case. -/
def printedMnemonic (lower : Bool) (name : List Char) (m : Mode) : List Char := (name ++ ['.', modeLetter m]).map (cased lower)

theorem readMnemonic_printedMnemonic {op : Op} {name : List Char} (h : opName op = some name) (m : Mode) (lower : Bool) :
    readMnemonic (printedMnemonic lower name m) = some (op, m) := by
  cases op <;> cases h <;> cases m <;> cases lower <;> decide

theorem isPlain_printedMnemonic {op : Op} {name : List Char} (h : opName op = some name) (m : Mode) (lower : Bool) :
    ∀ c ∈ printedMnemonic lower name m, isPlain c = true := by
  rw [← List.all_eq_true]
  cases op <;> cases h <;> cases m <;> cases lower <;> decide

theorem nonblankEnds_printedMnemonic {op : Op} {name : List Char} (h : opName op = some name) (m : Mode) (lower : Bool) :
    NonblankEnds (printedMnemonic lower name m) :=
  nonblankEnds_of_isPlain (mt List.map_eq_nil_iff.1 (List.append_ne_nil_of_right_ne_nil _ (List.cons_ne_nil _ _)))
    (isPlain_printedMnemonic h m lower)

/-- The four hexadecimal digits of a Word, from the highest. -/
def hexDigitsOf (w : Word) : List Nat := [w.toNat / 4096, w.toNat / 256 % 16, w.toNat / 16 % 16, w.toNat % 16]

theorem hexDigitsOf_lt (w : Word) : ∀ d ∈ hexDigitsOf w, d < 16 := by
  have hlt := w.isLt
  simp only [hexDigitsOf, List.forall_mem_cons, List.not_mem_nil, false_imp_iff, implies_true, and_true]
  omega

theorem foldl_hexDigitsOf (w : Word) : (hexDigitsOf w).foldl (fun v d => v * 16 + d) 0 = w.toNat := by
  simp only [hexDigitsOf, List.foldl_cons, List.foldl_nil]
  omega

/-- An operand as the disassembler prints it, in upper or in lower case. -/
def printedWord (lower : Bool) (w : Word) : List Char := (printWord w).map (cased lower)

theorem printedWord_eq (lower : Bool) (w : Word) :
    printedWord lower w = '0' :: 'x' :: (hexDigitsOf w).map fun d => cased lower (hexChar d) := by
  cases lower <;> rfl

theorem isPlain_cased_hexChar : ∀ d < 16, ∀ lower : Bool, isPlain (cased lower (hexChar d)) = true := by
  decide

theorem isPlain_printedWord (lower : Bool) (w : Word) : ∀ c ∈ printedWord lower w, isPlain c = true := by
  rw [printedWord_eq, List.forall_mem_cons, List.forall_mem_cons]
  exact ⟨rfl, rfl, List.forall_mem_map.2 fun d hd => isPlain_cased_hexChar d (hexDigitsOf_lt w d hd) lower⟩

theorem nonblankEnds_printedWord (lower : Bool) (w : Word) : NonblankEnds (printedWord lower w) :=
  nonblankEnds_of_isPlain (by rw [printedWord_eq]; exact List.cons_ne_nil _ _) (isPlain_printedWord lower w)

/-- A printed operand is a hexadecimal literal of four digits, whose number is the Word. -/
theorem literal_printedWord (m : Mode) (lower : Bool) (w : Word) : literal m (printedWord lower w) = .ok w := by
  have hne : (hexDigitsOf w).map (·, lower) ≠ [] := List.cons_ne_nil _ _
  have hlit := hexLiteral_map_cased hne (List.forall_mem_map.2 (hexDigitsOf_lt w))
  rw [List.map_map, List.foldl_map, foldl_hexDigitsOf, BitVec.ofNat_toNat, BitVec.setWidth_eq] at hlit
  rw [printedWord_eq]
  exact hlit

/-- The operands of a printed command, in upper or in lower case. -/
def printedOperands (lower : Bool) (op : Op) (a b : Word) : List Char := (printOperands op a b).map (cased lower)

theorem printedOperands_neg (lower : Bool) (a b : Word) : printedOperands lower .neg a b = printedWord lower a := rfl

theorem printedOperands_of_ne_neg {op : Op} (h : op ≠ .neg) (lower : Bool) (a b : Word) :
    printedOperands lower op a b = printedWord lower a ++ ',' :: ' ' :: printedWord lower b := by
  have hprint : printOperands op a b = printWord a ++ [',', ' '] ++ printWord b := by
    cases op with
    | neg => exact absurd rfl h
    | _ => rfl
  rw [printedOperands, hprint, List.append_assoc, List.map_append]
  cases lower <;> rfl

theorem nonblankEnds_printedOperands (lower : Bool) (op : Op) (a b : Word) : NonblankEnds (printedOperands lower op a b) := by
  by_cases hop : op = .neg
  · rw [hop, printedOperands_neg]
    exact nonblankEnds_printedWord lower a
  · rw [printedOperands_of_ne_neg hop]
    have h := (nonblankEnds_printedWord lower a).append (nonblankEnds_printedWord lower b) [',', ' ']
    rwa [List.append_assoc] at h

theorem printedWord_no_semicolon (lower : Bool) (w : Word) : ∀ c ∈ printedWord lower w, c ≠ ';' :=
  fun c hc => ((isPlain_iff c).1 (isPlain_printedWord lower w c hc)).2.2

theorem printedOperands_no_semicolon (lower : Bool) (op : Op) (a b : Word) :
    ∀ c ∈ printedOperands lower op a b, c ≠ ';' := by
  by_cases hop : op = .neg
  · rw [hop, printedOperands_neg]
    exact printedWord_no_semicolon lower a
  · rw [printedOperands_of_ne_neg hop]
    simp only [List.forall_mem_append, List.forall_mem_cons]
    exact ⟨printedWord_no_semicolon lower a, by decide, by decide, printedWord_no_semicolon lower b⟩

/-! ### Reading the parts back -/

theorem oneOperand_of_literal {m : Mode} {x : List Char} {a : Word} (h : literal m x = .ok a) :
    oneOperand m [x] = .ok (a, 0x0000#16) := by
  rw [oneOperand, h]

theorem twoOperands_of_literal {m : Mode} {x y : List Char} {a b : Word} (hx : literal m x = .ok a)
    (hy : literal m y = .ok b) : twoOperands m [x, y] = .ok (a, b) := by
  rw [twoOperands, hx, hy]

theorem readOperands_of_ne_neg {op : Op} (h : op ≠ .neg) (m : Mode) (args : List (List Char)) :
    readOperands op m args = twoOperands m args := by
  cases op with
  | neg => exact absurd rfl h
  | _ => rfl

/-- The blank and the operand between two commas. -/
theorem blank_printedWord_no_comma (lower : Bool) (w : Word) : ∀ c ∈ ' ' :: printedWord lower w, c ≠ ',' :=
  List.forall_mem_cons.2 ⟨by decide, fun c hc => ((isPlain_iff c).1 (isPlain_printedWord lower w c hc)).2.1⟩

theorem trim_blank_printedWord (lower : Bool) (w : Word) : trim (' ' :: printedWord lower w) = printedWord lower w :=
  trim_blank_cons (nonblankEnds_printedWord lower w)

/-- The assembler's operand fields of printed operands are A and B, where a NEG has no B. -/
theorem readOperands_printedOperands {op : Op} {b : Word} (hb : op = .neg → b = 0x0000#16) (m : Mode) (lower : Bool)
    (a : Word) : readOperands op m ((commaParts (' ' :: printedOperands lower op a b)).map trim) = .ok (a, b) := by
  by_cases hop : op = .neg
  · obtain rfl := hb hop
    subst hop
    rw [printedOperands_neg, commaParts_of_no_comma (blank_printedWord_no_comma lower a), List.map_singleton,
      trim_blank_printedWord, readOperands, oneOperand_of_literal (literal_printedWord m lower a)]
  · have hparts := commaParts_append_comma (blank_printedWord_no_comma lower a) (' ' :: printedWord lower b)
    rw [commaParts_of_no_comma (blank_printedWord_no_comma lower b), List.cons_append] at hparts
    rw [printedOperands_of_ne_neg hop, hparts, List.map_cons, List.map_singleton, trim_blank_printedWord,
      trim_blank_printedWord, readOperands_of_ne_neg hop,
      twoOperands_of_literal (literal_printedWord m lower a) (literal_printedWord m lower b)]

/-- A line that holds a printed command, in upper or in lower case, blanks around it, and a comment or none. -/
theorem assembleLine_printed {op : Op} {name : List Char} (hname : opName op = some name) {b : Word}
    (hb : op = .neg → b = 0x0000#16) (m : Mode) (lower : Bool) (a : Word) {before after rest : List Char}
    (hbefore : ∀ c ∈ before, isBlank c = true) (hafter : ∀ c ∈ after, isBlank c = true)
    (hrest : rest = [] ∨ rest.head? = some ';') :
    assembleLine (before ++ (printedMnemonic lower name m ++ ' ' :: printedOperands lower op a b) ++ after ++ rest) =
      .ok (some (Instr.ofFields op m a b)) := by
  have hplain := isPlain_printedMnemonic hname m lower
  have hblank : ∀ c, isBlank c = true → c ≠ ';' := by
    rintro c hc rfl
    cases hc
  have hends : NonblankEnds (printedMnemonic lower name m ++ ' ' :: printedOperands lower op a b) := by
    have h := (nonblankEnds_printedMnemonic hname m lower).append (nonblankEnds_printedOperands lower op a b) [' ']
    rwa [List.append_assoc] at h
  have hsemicolon :
      ∀ c ∈ before ++ (printedMnemonic lower name m ++ ' ' :: printedOperands lower op a b) ++ after, c ≠ ';' := by
    simp only [List.forall_mem_append, List.forall_mem_cons]
    exact ⟨⟨fun c hc => hblank c (hbefore c hc), fun c hc => ((isPlain_iff c).1 (hplain c hc)).2.2, by decide,
      printedOperands_no_semicolon lower op a b⟩, fun c hc => hblank c (hafter c hc)⟩
  refine assembleLine_of_parts ?_ (fun c hc => ((isPlain_iff c).1 (hplain c hc)).1) (readMnemonic_printedMnemonic hname m lower)
    (readOperands_printedOperands hb m lower a)
  rw [withoutComment_append hsemicolon hrest, trim_append hbefore hends hafter]

/-! ### The disassembler -/

theorem disassemble_of_opName {i : Instr} {name : List Char} (h : opName i.op = some name) :
    disassemble i = some (name ++ ['.', modeLetter i.mode, ' '] ++ printOperands i.op i.a i.b) := by
  rw [disassemble, h]

/-- A printed line, in upper or in lower case, by its parts. -/
theorem map_cased_text (lower : Bool) (name : List Char) (m : Mode) (op : Op) (a b : Word) :
    (name ++ ['.', modeLetter m, ' '] ++ printOperands op a b).map (cased lower) =
      printedMnemonic lower name m ++ ' ' :: printedOperands lower op a b := by
  have hblank : cased lower ' ' = ' ' := by cases lower <;> rfl
  simp only [printedMnemonic, printedOperands, List.map_append, List.map_cons, List.map_nil, hblank, List.append_assoc,
    List.cons_append, List.nil_append]

theorem exists_cased_of_mem {printed text : List Char} (h : printed ∈ [text, text.map Char.toLower]) :
    ∃ lower, printed = text.map (cased lower) := by
  rcases List.mem_pair.1 h with rfl | rfl
  · exact ⟨false, (List.map_id' _).symm⟩
  · exact ⟨true, rfl⟩

/-- Settles O50: the assembler cuts a printed line into the parts it was made of, and reads each of them back. -/
theorem assemblerReadsTheDisassembler : Obligations.AssemblerReadsTheDisassembler := by
  intro i hi
  obtain ⟨hop, hb⟩ := (assemblerForm_iff i).1 hi
  obtain ⟨name, hname⟩ := Option.isSome_iff_exists.1 hop
  refine ⟨_, disassemble_of_opName hname, fun printed hprinted before after comment hbefore hafter => ?_⟩
  obtain ⟨lower, rfl⟩ := exists_cased_of_mem hprinted
  have hline : ∀ rest : List Char, rest = [] ∨ rest.head? = some ';' → _ := fun rest hrest =>
    assembleLine_printed hname hb i.mode lower i.a (List.all_eq_true.1 hbefore) (List.all_eq_true.1 hafter) hrest
  rw [← map_cased_text, ofFields_fields] at hline
  refine ⟨?_, hline _ (.inr rfl)⟩
  have hbare := hline [] (.inl rfl)
  rwa [List.append_nil] at hbare

end Sys2Proof.Machine
end
